-- ==== Sys2Proof/Word.lean ====
section
/-! DEFINITION. The widths of the machine's values: registers, results and instruction words are
32-bit unsigned integers (00_scope.md R8, R10), memory is made of 8-bit bytes (10_state.md R35) and
a register index is a 4-bit field (30_encoding.md R72). -/

namespace Sys2Proof

/-- A register value, a result or an instruction word: XLEN = 32 bits (00_scope.md R8). -/
abbrev Word := BitVec 32

/-- One byte of memory (10_state.md R35). -/
abbrev Byte := BitVec 8

/-- A register index as the decoder produces it: a 4-bit field, 0 to 15 (10_state.md R22,
30_encoding.md R72). -/
abbrev RegIdx := BitVec 4

end Sys2Proof
end

