-- ==== Sys2Proof/Syntax.lean ====
section
/-! DEFINITION. The decoded operations (30_encoding.md R71): a closed sum with one variant per
mnemonic, each carrying its operand fields at the width the decoder produces. The ten UNKNOWN rows
of spec/opcode_table.json are ten regions of words that decode to the ONE operation UNKNOWN, which
has no operand fields, so they share one constructor (DEDUCED; log entry 13). -/

namespace Sys2Proof

/-- A DecodedOperation (30_encoding.md R71). The offset of B and BL is the 24-bit field already
multiplied by 4, so it has 26 significant bits and `Instr.WellFormed` asks for the multiple of 4. -/
inductive Instr where
  /-- MOV rd, imm (41_data_processing.md R122). -/
  | mov (rd : RegIdx) (imm : BitVec 8)
  /-- ADD rd, rn, imm (R123). -/
  | add (rd rn : RegIdx) (imm : BitVec 8)
  /-- SUB rd, rn, imm (R124). -/
  | sub (rd rn : RegIdx) (imm : BitVec 8)
  /-- CMP rn, imm (R125). -/
  | cmp (rn : RegIdx) (imm : BitVec 8)
  /-- AND rd, rn, imm (R126). -/
  | and (rd rn : RegIdx) (imm : BitVec 8)
  /-- OR rd, rn, imm (R127). -/
  | or (rd rn : RegIdx) (imm : BitVec 8)
  /-- XOR rd, rn, imm (R128). -/
  | xor (rd rn : RegIdx) (imm : BitVec 8)
  /-- MUL rd, rn, imm (R129). -/
  | mul (rd rn : RegIdx) (imm : BitVec 8)
  /-- MVN rd, imm (R130). -/
  | mvn (rd : RegIdx) (imm : BitVec 8)
  /-- TST rn, imm (R131). -/
  | tst (rn : RegIdx) (imm : BitVec 8)
  /-- LSL rd, rn, shamt (42_shifts.md R140). -/
  | lsl (rd rn : RegIdx) (shamt : BitVec 5)
  /-- LSR rd, rn, shamt (42_shifts.md R141). -/
  | lsr (rd rn : RegIdx) (shamt : BitVec 5)
  /-- LDR rd, rn, offset (43_load_store.md R151). -/
  | ldr (rd rn : RegIdx) (offset : BitVec 12)
  /-- STR rd, rn, offset; `rd` is the register stored (43_load_store.md R152). -/
  | str (rd rn : RegIdx) (offset : BitVec 12)
  /-- B offset, in bytes (44_branch.md R160). -/
  | b (offset : BitVec 26)
  /-- BL offset, in bytes (44_branch.md R161). -/
  | bl (offset : BitVec 26)
  /-- UNKNOWN, what every unrecognised word decodes to (45_unknown.md R170). -/
  | unknown
deriving DecidableEq, Repr

end Sys2Proof
end

