-- ==== Sys2Proof/WellFormed.lean ====
section
/-! DEFINITION. Which operations the decoder's output format admits (30_encoding.md R71). The widths
of the fields are in the type of `Instr`; what is left to check is that the offset of B and BL is a
multiple of 4. -/

namespace Sys2Proof

/-- A branch offset is a multiple of 4 (30_encoding.md R71, R79). -/
def branchOffsetOk (offset : BitVec 26) : Bool := offset.extractLsb' 0 2 == 0#2

/-- The check that the operand fields hold values 30_encoding.md R71 admits. -/
def Instr.wellFormed : Instr → Bool
  | .mov _ _ => true
  | .add _ _ _ => true
  | .sub _ _ _ => true
  | .cmp _ _ => true
  | .and _ _ _ => true
  | .or _ _ _ => true
  | .xor _ _ _ => true
  | .mul _ _ _ => true
  | .mvn _ _ => true
  | .tst _ _ => true
  | .lsl _ _ _ => true
  | .lsr _ _ _ => true
  | .ldr _ _ _ => true
  | .str _ _ _ => true
  | .b offset => branchOffsetOk offset
  | .bl offset => branchOffsetOk offset
  | .unknown => true

/-- The operand fields hold values that 30_encoding.md R71 admits. -/
abbrev Instr.WellFormed (i : Instr) : Prop := i.wellFormed = true

end Sys2Proof
end

