-- ==== Sys2Proof/Decode.lean ====
section
/-! DEFINITION. The instruction_decoder (30_encoding.md): field extraction (R72), the decode
algorithm (R73), the decoder over bytes, and the encoder of the spec's own encodings (R88). -/

namespace Sys2Proof

/-! ### Byte order (20_memory.md R52, R56): the byte at the lowest address is the least significant. -/

/-- The word whose bytes at increasing addresses are b0, b1, b2, b3. -/
def wordOfBytes (b0 b1 b2 b3 : Byte) : Word := b3 ++ b2 ++ b1 ++ b0

/-- Byte k of a word, the one that stands k bytes above the word's address. -/
def wordByte (v : Word) (k : Nat) : Byte := v.extractLsb' (8 * k) 8

/-- The bytes of a word at increasing addresses. -/
def wordBytes (v : Word) : List Byte := [wordByte v 0, wordByte v 1, wordByte v 2, wordByte v 3]

/-! ### Field extraction (30_encoding.md R72) -/

/-- `i_bit` = w[25]. -/
def iBit (w : Word) : BitVec 1 := w.extractLsb' 25 1
/-- `opcode` = w[24:21]. -/
def opcodeOf (w : Word) : BitVec 4 := w.extractLsb' 21 4
/-- `rn` = w[19:16] (90_conflicts.md C2: one field, most significant bit 19). -/
def rnOf (w : Word) : RegIdx := w.extractLsb' 16 4
/-- `rd` = w[15:12]. -/
def rdOf (w : Word) : RegIdx := w.extractLsb' 12 4
/-- `imm` = w[7:0]. -/
def immOf (w : Word) : BitVec 8 := w.extractLsb' 0 8
/-- `shift_amount` = w[11:7]. -/
def shamtOf (w : Word) : BitVec 5 := w.extractLsb' 7 5
/-- `shift_type` = w[6:5]. -/
def shiftTypeOf (w : Word) : BitVec 2 := w.extractLsb' 5 2
/-- `ls_class` = w[27:26]. -/
def lsClassOf (w : Word) : BitVec 2 := w.extractLsb' 26 2
/-- `l_bit` = w[20]. -/
def lBit (w : Word) : BitVec 1 := w.extractLsb' 20 1
/-- `offset` of a load or store = w[11:0]. -/
def lsOffsetOf (w : Word) : BitVec 12 := w.extractLsb' 0 12
/-- `br_class` = w[27:24]. -/
def brClassOf (w : Word) : BitVec 4 := w.extractLsb' 24 4
/-- The offset of a branch, `offset24` = w[23:0] multiplied by 4 (30_encoding.md R79). -/
def branchOffsetOf (w : Word) : BitVec 26 := w.extractLsb' 0 24 ++ 0#2

/-! ### The decode algorithm (30_encoding.md R73) -/

/-- The shift group, opcode 0011 of check 1 (R76): shift types 10 and 11 are UNKNOWN. -/
def decodeShift (w : Word) : Instr :=
  match shiftTypeOf w with
  | 0b00#2 => .lsl (rdOf w) (rnOf w) (shamtOf w)
  | 0b01#2 => .lsr (rdOf w) (rnOf w) (shamtOf w)
  | _ => .unknown

/-- Check 1, for `i_bit` = 1: the opcode map of R75. The last arm is the five opcodes 0101, 0111,
1001, 1011, 1110, which are UNKNOWN at once (90_conflicts.md C1). -/
def decodeDataProcessing (w : Word) : Instr :=
  match opcodeOf w with
  | 0b1101#4 => .mov (rdOf w) (immOf w)
  | 0b0100#4 => .add (rdOf w) (rnOf w) (immOf w)
  | 0b0010#4 => .sub (rdOf w) (rnOf w) (immOf w)
  | 0b1010#4 => .cmp (rnOf w) (immOf w)
  | 0b0000#4 => .and (rdOf w) (rnOf w) (immOf w)
  | 0b1100#4 => .or (rdOf w) (rnOf w) (immOf w)
  | 0b0001#4 => .xor (rdOf w) (rnOf w) (immOf w)
  | 0b0110#4 => .mul (rdOf w) (rnOf w) (immOf w)
  | 0b1111#4 => .mvn (rdOf w) (immOf w)
  | 0b1000#4 => .tst (rnOf w) (immOf w)
  | 0b0011#4 => decodeShift w
  | _ => .unknown

/-- Check 2, for `ls_class` = 01: `l_bit` 1 is LDR, 0 is STR (R77). -/
def decodeLoadStore (w : Word) : Instr :=
  if lBit w = 1#1 then .ldr (rdOf w) (rnOf w) (lsOffsetOf w)
  else .str (rdOf w) (rnOf w) (lsOffsetOf w)

/-- Checks 3, 4 and 5 as the document writes them; the first two are never met (R80). -/
def decodeBranch (w : Word) : Instr :=
  if brClassOf w = 0b1010#4 then .b (branchOffsetOf w)
  else if brClassOf w = 0b1011#4 then .bl (branchOffsetOf w)
  else .unknown

/-- `Decode` of R73: a pure, total function of the word (R84); the checks in the document's order
(log entry 11). -/
def decode (w : Word) : Instr :=
  if iBit w = 1#1 then decodeDataProcessing w
  else if lsClassOf w = 0b01#2 then decodeLoadStore w
  else decodeBranch w

/-- Why a list of bytes is no instruction. -/
inductive DecodeError where
  /-- Fewer than the 4 bytes of an instruction (30_encoding.md R85). -/
  | truncated
deriving DecidableEq, Repr

/-- The decoder over bytes as they stand at increasing addresses: the instruction of the first four
and the bytes after it. An unrecognised word is UNKNOWN and no error (30_encoding.md R84). -/
def decodeBytes : List Byte → Except DecodeError (Instr × List Byte)
  | b0 :: b1 :: b2 :: b3 :: rest => .ok (decode (wordOfBytes b0 b1 b2 b3), rest)
  | _ => .error .truncated

/-- The instruction word that an opcode-table word of `nbits` bits stands for: the bits above
`nbits` are 0. -/
def tableWord (nbits w : Nat) : Word := BitVec.ofNat 32 (w % 2 ^ nbits)

/-- The instruction the decoder reads from an opcode-table word laid out as bytes. -/
def decodeTableWord (nbits w : Nat) : Option Instr :=
  match decodeBytes (wordBytes (tableWord nbits w)) with
  | .ok (i, _) => some i
  | .error .truncated => none

/-! ### The encoder (30_encoding.md R88): unexamined bits as in the document's scenario words -/

/-- Format DPI (R74): 1110 | 00 | 1 | opcode | 0 | rn | rd | 0000 | imm. -/
def encodeDpi (opcode : BitVec 4) (rn rd : RegIdx) (imm : BitVec 8) : Word :=
  0b1110#4 ++ 0b00#2 ++ 1#1 ++ opcode ++ 0#1 ++ rn ++ rd ++ 0#4 ++ imm

/-- Format SHI (R76): 1110 | 00 | 1 | 0011 | 0 | rn | rd | shamt | shift_type | 00000. -/
def encodeShi (shiftType : BitVec 2) (rn rd : RegIdx) (shamt : BitVec 5) : Word :=
  0b1110#4 ++ 0b00#2 ++ 1#1 ++ 0b0011#4 ++ 0#1 ++ rn ++ rd ++ shamt ++ shiftType ++ 0#5

/-- Format LS (R77): 1110 | 01 | 0 | 1100 | l_bit | rn | rd | offset. -/
def encodeLs (l : BitVec 1) (rn rd : RegIdx) (offset : BitVec 12) : Word :=
  0b1110#4 ++ 0b01#2 ++ 0#1 ++ 0b1100#4 ++ l ++ rn ++ rd ++ offset

/-- Format BR (R78): 1110 | br_class | offset24, where offset24 is the byte offset divided by 4. -/
def encodeBr (brClass : BitVec 4) (offset : BitVec 26) : Word :=
  0b1110#4 ++ brClass ++ offset.extractLsb' 2 24

/-- The spec's own encoding of an operation (R88). The words of B and BL follow the document's
format BR although no word decodes to either (R80). UNKNOWN is written 0x00000000 (R82; log entry
12). -/
def encode : Instr → Word
  | .mov rd imm => encodeDpi 0b1101#4 0#4 rd imm
  | .add rd rn imm => encodeDpi 0b0100#4 rn rd imm
  | .sub rd rn imm => encodeDpi 0b0010#4 rn rd imm
  | .cmp rn imm => encodeDpi 0b1010#4 rn 0#4 imm
  | .and rd rn imm => encodeDpi 0b0000#4 rn rd imm
  | .or rd rn imm => encodeDpi 0b1100#4 rn rd imm
  | .xor rd rn imm => encodeDpi 0b0001#4 rn rd imm
  | .mul rd rn imm => encodeDpi 0b0110#4 rn rd imm
  | .mvn rd imm => encodeDpi 0b1111#4 0#4 rd imm
  | .tst rn imm => encodeDpi 0b1000#4 rn 0#4 imm
  | .lsl rd rn shamt => encodeShi 0b00#2 rn rd shamt
  | .lsr rd rn shamt => encodeShi 0b01#2 rn rd shamt
  | .ldr rd rn offset => encodeLs 1#1 rn rd offset
  | .str rd rn offset => encodeLs 0#1 rn rd offset
  | .b offset => encodeBr 0b1010#4 offset
  | .bl offset => encodeBr 0b1011#4 offset
  | .unknown => 0x00000000#32

/-- The bytes of an operation's encoding at increasing addresses (20_memory.md R56). -/
def encodeBytes (i : Instr) : List Byte := wordBytes (encode i)

end Sys2Proof
end

