-- ==== Sys2Proof/Config.lean ====
section
/-! DEFINITION. The fixed parameters of every instance of the hardware (00_scope.md R8), the default
of the one that an instance chooses (00_scope.md R9), what a byte of memory that nothing has written
reads as (10_state.md R35), and the one free value the spec leaves: the memory after a reset with an
image that is too large (20_memory.md R69). MEM_CAPACITY and IMAGE_LEN themselves differ between
instances and runs and stand in State (10_state.md R41). -/

namespace Sys2Proof.Config

/-- PC_INDEX: register 15 is the program counter (00_scope.md R8). -/
abbrev pcIndex : RegIdx := 15#4

/-- LR_INDEX: register 14 is the register BL writes (00_scope.md R8). -/
abbrev lrIndex : RegIdx := 14#4

/-- WORD_BYTES: bytes in a word, in an instruction and in every memory access (00_scope.md R8). -/
abbrev wordBytes : Nat := 4

/-- RESET_PC: address of the first instruction (00_scope.md R8). -/
abbrev resetPc : Word := 0#32

/-- MEM_CAPACITY when nothing else is said (00_scope.md R9). -/
abbrev defaultMemCapacity : Nat := 4096

/-- The largest MEM_CAPACITY an instance may have (00_scope.md R9). -/
abbrev maxMemCapacity : Nat := 2 ^ 32

/-- What a byte that is not listed in the memory reads as: memory is "zero-initialized"
(10_state.md R35). -/
abbrev unlistedByte : Byte := 0#8

/-- The byte at an address after a reset with an image longer than the memory, as a function of the
image, the capacity and the address. FREE VALUE: the spec does not define these contents and "a
model must not let a claim read them" (20_memory.md R69; log entry 2). -/
opaque oversizeImageByte : List Byte → Nat → Nat → Byte

end Sys2Proof.Config
end

