-- ==== Sys2Proof/Machine/State.lean ====
section
/-! DEFINITION. The state tuple of 10_state.md R41 with the two parameters a run does not change,
the reasons a step can stop, and the state after reset. -/

namespace Sys2Proof.Machine

/-- The kinds of fatal fault (60_exceptions.md R181). A meaning that meets one stops with it; the
fetch unit then takes it (`takeFault`: `run` becomes FAULTED(kind), R182), so a step of the whole
block still answers a next state. -/
inductive Fault where
  /-- Raised by MemRead and MemWrite when `addr + 4 > MEM_CAPACITY`, that is by the fetch, LDR and
  STR, with the address (R181). SAFE: nothing is read or written. -/
  | memOutOfBounds (addr : Nat)
  /-- Raised by the register file's own interface for an index above 15, with the index; no
  instruction word can cause it (10_state.md R22). SAFE: nothing is read or written. -/
  | regIndexOutOfRange (index : Nat)
  /-- Raised by the bulk load at reset when `IMAGE_LEN > MEM_CAPACITY` (20_memory.md R69). SAFE: no
  step is ever taken. -/
  | imageTooLarge
deriving DecidableEq, Repr

/-- Why a step has no meaning. Every instruction of this hardware has one, so nothing raises these. -/
inductive Refusal where
  /-- The instruction has no meaning in the model yet; raised by no arm of `exec`. SAFE. -/
  | notModelled (mnemonic : String)
deriving DecidableEq, Repr

/-- The run state `run` of the fetch unit (10_state.md R33). -/
inductive RunState where
  /-- RUNNING: the only state in which a step is taken. -/
  | running
  /-- HALTED_NORMAL: the next fetch address reached the end of the image; an expected end. -/
  | haltedNormal
  /-- HALTED_UNKNOWN: an UNKNOWN word was executed; an expected end. -/
  | haltedUnknown
  /-- FAULTED(kind): a fatal fault; an error end. -/
  | faulted (kind : Fault)
deriving DecidableEq, Repr

/-- The four condition flags, one bit each, no status word (10_state.md R29). -/
structure Flags where
  /-- Negative: bit 31 of the last flag-setting result. -/
  n : Bool
  /-- Zero: whether the last flag-setting result was 0. -/
  z : Bool
  /-- Carry: "declared but never computed by any operation". -/
  c : Bool
  /-- Overflow: "declared but never computed". -/
  v : Bool
deriving DecidableEq, Repr

/-- The bytes of memory: (address, byte) pairs in one canonical form, addresses strictly rising and
no byte equal to `Config.unlistedByte`, what an unlisted address reads as. -/
abbrev Memory := List Host.Cell

/-- No cell lies below `lo`, addresses rise strictly, no listed byte reads as an unlisted one. -/
def Memory.wfFrom : Nat → Memory → Bool
  | _, [] => true
  | lo, (a, b) :: rest => decide (lo ≤ a) && b != Config.unlistedByte && Memory.wfFrom (a + 1) rest

/-- The canonical form of a memory. -/
def Memory.wf (m : Memory) : Bool := Memory.wfFrom 0 m

/-- The complete state of the block (10_state.md R41). -/
structure State where
  /-- `x[0]` to `x[15]` (R20); `x[15]` is the program counter register (R24), `x[14]` the link
  register. -/
  regs : Vector Word 16
  /-- N, Z, C, V (R29). -/
  flags : Flags
  /-- The fetch unit's own program counter (R25). -/
  fpc : Word
  /-- The run state (R33). -/
  run : RunState
  /-- `mem[0]` to `mem[MEM_CAPACITY - 1]` (R35). -/
  mem : Memory
  /-- MEM_CAPACITY, a parameter of the instance (00_scope.md R9); no step changes it (log entry 14). -/
  memCapacity : Nat
  /-- IMAGE_LEN, the byte length of the image loaded at reset (00_scope.md R9, 20_memory.md R60); no
  step changes it. -/
  imageLen : Nat
deriving DecidableEq, Repr

/-- The machine right after reset (10_state.md R40, 70_reset_and_hazards.md R200) of an instance of
the default capacity with no program image: IMAGE_LEN = 0, so `run` is HALTED_NORMAL (R202). The
reset with an image is `resetWith` in Machine/Reset.lean (log entry 1). -/
def State.reset : State where
  regs := Vector.replicate 16 0#32
  flags := { n := false, z := false, c := false, v := false }
  fpc := Config.resetPc
  run := .haltedNormal
  mem := []
  memCapacity := Config.defaultMemCapacity
  imageLen := 0

end Sys2Proof.Machine
end

