-- ==== Sys2Proof/Machine/Ops.lean ====
section
/-! DEFINITION. The named operations over the state: the field updates, the register file
(10_state.md), the memory primitives (20_memory.md) and taking a fault (60_exceptions.md). -/

namespace Sys2Proof.Machine

/-! ### Field updates -/

/-- The state with new flags. -/
def setFlags (f : Flags) (s : State) : State := { s with flags := f }
/-- The state with a new fetch program counter. -/
def setFpc (a : Word) (s : State) : State := { s with fpc := a }
/-- The state with a new run state. -/
def setRun (r : RunState) (s : State) : State := { s with run := r }
/-- The state with a new memory. -/
def setMem (m : Memory) (s : State) : State := { s with mem := m }

/-! ### The register file -/

/-- The 32-bit mask of a register write: v mod 2^32 for any integer v (10_state.md R21). -/
def reduce (v : Int) : Word := BitVec.ofInt 32 v

/-- Read register i; index 15 is read like any other (10_state.md R21, R24). -/
def getReg (i : RegIdx) (s : State) : Word := s.regs[i.toNat]

/-- Write register i with a 32-bit value (10_state.md R21). -/
def setReg (i : RegIdx) (v : Word) (s : State) : State := { s with regs := s.regs.set i.toNat v }

/-- Write register i with any integer, reduced modulo 2^32 (10_state.md R21). -/
def writeReg (i : RegIdx) (v : Int) (s : State) : State := setReg i (reduce v) s

/-- The register file's read interface for a caller other than the decoder: an index above 15 is a
fatal fault (10_state.md R22). -/
def registerFileGet (i : Nat) (s : State) : Except Fault Word :=
  if i < 16 then .ok (getReg (BitVec.ofNat 4 i) s) else .error (.regIndexOutOfRange i)

/-- The register file's write interface for a caller other than the decoder (10_state.md R21, R22). -/
def registerFileSet (i : Nat) (v : Int) (s : State) : Except Fault State :=
  if i < 16 then .ok (writeReg (BitVec.ofNat 4 i) v s) else .error (.regIndexOutOfRange i)

/-! ### Memory -/

/-- The byte at address a. -/
def Memory.readByte : Memory → Nat → Byte
  | [], _ => Config.unlistedByte
  | (c, d) :: rest, a => if c = a then d else Memory.readByte rest a

/-- Put byte b in front of a memory whose cells all lie above a. -/
def Memory.consByte (a : Nat) (b : Byte) (m : Memory) : Memory :=
  if b = Config.unlistedByte then m else (a, b) :: m

/-- Store byte b at address a, keeping the canonical form. -/
def Memory.writeByte : Memory → Nat → Byte → Memory
  | [], a, b => Memory.consByte a b []
  | (c, d) :: rest, a, b =>
    if a < c then Memory.consByte a b ((c, d) :: rest)
    else if a = c then Memory.consByte a b rest
    else (c, d) :: Memory.writeByte rest a b

/-- Store a list of bytes at increasing addresses from a. -/
def Memory.writeBytes : Memory → Nat → List Byte → Memory
  | m, _, [] => m
  | m, a, b :: rest => Memory.writeBytes (Memory.writeByte m a b) (a + 1) rest

/-- The four bytes at addr to addr + 3 as a little-endian word (20_memory.md R52, R56). -/
def Memory.readWord (m : Memory) (addr : Nat) : Word :=
  wordOfBytes (m.readByte addr) (m.readByte (addr + 1)) (m.readByte (addr + 2))
    (m.readByte (addr + 3))

/-- Store a word as its four little-endian bytes (20_memory.md R53). -/
def Memory.writeWord (m : Memory) (addr : Nat) (v : Word) : Memory :=
  m.writeBytes addr (wordBytes v)

/-- The bound of every access: the whole four-byte span lies in the memory. The address is the
unreduced sum, so one at or past 2^32 never wraps (20_memory.md R54; log entry 4). -/
def inBounds (addr : Nat) (s : State) : Bool := decide (addr + Config.wordBytes ≤ s.memCapacity)

/-- `MemRead(addr, 4)` (20_memory.md R52): no alignment requirement (R55). -/
def memRead (addr : Nat) (s : State) : Except Fault Word :=
  if inBounds addr s then .ok (s.mem.readWord addr) else .error (.memOutOfBounds addr)

/-- `MemWrite(addr, 4, v)` (20_memory.md R53): when the bound fails no byte changes. -/
def memWrite (addr : Nat) (v : Word) (s : State) : Except Fault State :=
  if inBounds addr s then .ok (setMem (s.mem.writeWord addr v) s)
  else .error (.memOutOfBounds addr)

/-! ### Faults

There is no trap entry and no return (60_exceptions.md R186, R187): a fault saves nothing, goes to
no handler and nothing but a reset leaves it. -/

/-- Taking a fault: the step stops where it is and `run <- FAULTED(kind)`; what the earlier lines of
the step did stays (60_exceptions.md R182). -/
def takeFault (kind : Fault) (s : State) : State := setRun (.faulted kind) s

/-- What an execution unit answers when an access gives a state or raises a fault (60_exceptions.md
R182: "faults surface immediately to the caller of the affected operation"). -/
def orFault : Except Fault State → Host.Outcome State Fault Refusal
  | .ok s => .next s
  | .error kind => .fault kind

end Sys2Proof.Machine
end

