-- ==== Sys2Proof/Machine/Operands.lean ====
section
/-! DEFINITION. The operand forms (30_encoding.md R79): the zero-extended immediate, the base plus
unsigned offset of a load or store, and the target of a branch. Nothing is sign-extended. -/

namespace Sys2Proof.Machine

/-- `imm` of format DPI: `zext_32(w[7:0])`, no rotation, shift or scaling (R79). -/
def immWord (imm : BitVec 8) : Word := imm.setWidth 32

/-- The effective address of LDR and STR, `x[rn] + zext_32(offset)`: an unbounded sum that is not
reduced modulo 2^32 (43_load_store.md R150; log entry 4). -/
def effectiveAddress (rn : RegIdx) (offset : BitVec 12) (s : State) : Nat :=
  (getReg rn s).toNat + offset.toNat

/-- What B and BL write to `x[15]`, before the reduction: `x[15] + offset - 4`, the offset unsigned
(44_branch.md R160, R164). -/
def branchTarget (offset : BitVec 26) (s : State) : Int :=
  (getReg Config.pcIndex s).toNat + offset.toNat - 4

/-- The link value of BL, before the reduction: `x[15] + 4` (44_branch.md R161). -/
def linkValue (s : State) : Int := (getReg Config.pcIndex s).toNat + 4

end Sys2Proof.Machine
end

