-- ==== Sys2Proof/Machine/Branch.lean ====
section
/-! DEFINITION. The two branches of the alu_execution_unit (44_branch.md). No word decodes to either
(R165); they are the unit's behaviour for a caller that presents the operation. -/

namespace Sys2Proof.Machine

/-- B offset (R160): `x[15] <- (x[15] + offset - 4) mod 2^32`. -/
def execB (offset : BitVec 26) (s : State) : Host.Outcome State Fault Refusal :=
  .next (writeReg Config.pcIndex (branchTarget offset s) s)

/-- BL offset (R161): `x[14] <- (x[15] + 4) mod 2^32`, then `x[15]` as B, both from the value of
`x[15]` before the instruction. -/
def execBl (offset : BitVec 26) (s : State) : Host.Outcome State Fault Refusal :=
  .next (writeReg Config.pcIndex (branchTarget offset s) (writeReg Config.lrIndex (linkValue s) s))

end Sys2Proof.Machine
end

