-- ==== Sys2Proof/Machine/Flags.lean ====
section
/-! DEFINITION. The condition_flag_update_logic (41_data_processing.md R120). -/

namespace Sys2Proof.Machine

/-- The flags after a result r: Z is whether r is 0, N is bit 31 of r, C and V keep their values
(R120, 10_state.md R31). -/
def flagsAfter (r : Word) (f : Flags) : Flags := { f with z := r == 0#32, n := r.getLsbD 31 }

/-- `UpdateFlags(r)` (R120). -/
def updateFlags (r : Word) (s : State) : State := setFlags (flagsAfter r s.flags) s

/-- The end of every operation with a destination: write `x[rd] <- r`, then `UpdateFlags(r)`
(R121). -/
def writeResult (rd : RegIdx) (r : Word) (s : State) : State := updateFlags r (setReg rd r s)

end Sys2Proof.Machine
end

