-- ==== Sys2Proof/Machine/DataProcessing.lean ====
section
/-! DEFINITION. The ten immediate-operand operations of the alu_execution_unit
(41_data_processing.md). Each computes the unbounded integer result and reduces it modulo 2^32
(R121); register 15 and register 14 have no special case (R133; log entry 7). -/

namespace Sys2Proof.Machine

/-- MOV rd, imm (R122): `x[rd] <- zext_32(imm)`. -/
def execMov (rd : RegIdx) (imm : BitVec 8) (s : State) : Host.Outcome State Fault Refusal :=
  .next (writeResult rd (immWord imm) s)

/-- ADD rd, rn, imm (R123): `x[rd] <- (x[rn] + imm) mod 2^32`. -/
def execAdd (rd rn : RegIdx) (imm : BitVec 8) (s : State) : Host.Outcome State Fault Refusal :=
  .next (writeResult rd (reduce ((getReg rn s).toNat + (immWord imm).toNat)) s)

/-- SUB rd, rn, imm (R124): `x[rd] <- (x[rn] - imm) mod 2^32`, the register the minuend. -/
def execSub (rd rn : RegIdx) (imm : BitVec 8) (s : State) : Host.Outcome State Fault Refusal :=
  .next (writeResult rd (reduce ((getReg rn s).toNat - (immWord imm).toNat)) s)

/-- CMP rn, imm (R125): the flags of `x[rn] - imm`; no register is written. -/
def execCmp (rn : RegIdx) (imm : BitVec 8) (s : State) : Host.Outcome State Fault Refusal :=
  .next (updateFlags (reduce ((getReg rn s).toNat - (immWord imm).toNat)) s)

/-- AND rd, rn, imm (R126). -/
def execAnd (rd rn : RegIdx) (imm : BitVec 8) (s : State) : Host.Outcome State Fault Refusal :=
  .next (writeResult rd (getReg rn s &&& immWord imm) s)

/-- OR rd, rn, imm (R127). -/
def execOr (rd rn : RegIdx) (imm : BitVec 8) (s : State) : Host.Outcome State Fault Refusal :=
  .next (writeResult rd (getReg rn s ||| immWord imm) s)

/-- XOR rd, rn, imm (R128). -/
def execXor (rd rn : RegIdx) (imm : BitVec 8) (s : State) : Host.Outcome State Fault Refusal :=
  .next (writeResult rd (getReg rn s ^^^ immWord imm) s)

/-- MUL rd, rn, imm (R129): the low 32 bits of the product. -/
def execMul (rd rn : RegIdx) (imm : BitVec 8) (s : State) : Host.Outcome State Fault Refusal :=
  .next (writeResult rd (reduce ((getReg rn s).toNat * (immWord imm).toNat)) s)

/-- MVN rd, imm (R130): `x[rd] <- 0xFFFFFFFF ^ zext_32(imm)`. -/
def execMvn (rd : RegIdx) (imm : BitVec 8) (s : State) : Host.Outcome State Fault Refusal :=
  .next (writeResult rd (0xFFFFFFFF#32 ^^^ immWord imm) s)

/-- TST rn, imm (R131): the flags of `x[rn] & imm`; no register is written. -/
def execTst (rn : RegIdx) (imm : BitVec 8) (s : State) : Host.Outcome State Fault Refusal :=
  .next (updateFlags (getReg rn s &&& immWord imm) s)

end Sys2Proof.Machine
end

