-- ==== Sys2Proof/Machine/LoadStore.lean ====
section
/-! DEFINITION. The load_store_unit (43_load_store.md): LDR and STR. No flag is written, the base
register is never modified (R154), and an access out of bounds raises its fault before anything is
written (R153). -/

namespace Sys2Proof.Machine

/-- LDR rd, rn, offset (R151): the base is read before `x[rd]` is written. -/
def execLdr (rd rn : RegIdx) (offset : BitVec 12) (s : State) : Host.Outcome State Fault Refusal :=
  orFault ((memRead (effectiveAddress rn offset s) s).map fun v => setReg rd v s)

/-- STR rd, rn, offset (R152): stores the value of `x[rd]`. -/
def execStr (rd rn : RegIdx) (offset : BitVec 12) (s : State) : Host.Outcome State Fault Refusal :=
  orFault (memWrite (effectiveAddress rn offset s) (getReg rd s) s)

end Sys2Proof.Machine
end

