-- ==== Sys2Proof/Machine/Shift.lean ====
section
/-! DEFINITION. The two shifts of the alu_execution_unit (42_shifts.md). The amount is the 5-bit
field, so an amount of 32 or more cannot be expressed (R142). -/

namespace Sys2Proof.Machine

/-- LSL rd, rn, shamt (R140): `x[rd] <- (x[rn] * 2^shamt) mod 2^32`. -/
def execLsl (rd rn : RegIdx) (shamt : BitVec 5) (s : State) : Host.Outcome State Fault Refusal :=
  .next (writeResult rd (reduce ((getReg rn s).toNat * 2 ^ shamt.toNat)) s)

/-- LSR rd, rn, shamt (R141): `x[rd] <- floor(x[rn] / 2^shamt)`; an amount of 0 shifts by 0. -/
def execLsr (rd rn : RegIdx) (shamt : BitVec 5) (s : State) : Host.Outcome State Fault Refusal :=
  .next (writeResult rd (reduce ((getReg rn s).toNat / 2 ^ shamt.toNat)) s)

end Sys2Proof.Machine
end

