-- ==== Sys2Proof/Machine/Unknown.lean ====
section
/-! DEFINITION. UNKNOWN (45_unknown.md R170): executing it changes nothing; the step around it
halts the run. -/

namespace Sys2Proof.Machine

/-- UNKNOWN (R170): "no state change; signals loop termination". -/
def execUnknown (s : State) : Host.Outcome State Fault Refusal := .next s

end Sys2Proof.Machine
end

