-- ==== Sys2Proof/Machine/Dispatch.lean ====
section
/-! DEFINITION. Execute (40_fetch_and_step.md R103): one arm per tag, no other. -/

namespace Sys2Proof.Machine

/-- `Execute(op)`: the execution units read and write only the registers, the flags and the memory;
the fetch unit's part of a step is in Machine/Cycle.lean. -/
def exec (i : Instr) (s : State) : Host.Outcome State Fault Refusal :=
  match i with
  | .mov rd imm => Sys2Proof.Machine.execMov rd imm s
  | .add rd rn imm => Sys2Proof.Machine.execAdd rd rn imm s
  | .sub rd rn imm => Sys2Proof.Machine.execSub rd rn imm s
  | .cmp rn imm => Sys2Proof.Machine.execCmp rn imm s
  | .and rd rn imm => Sys2Proof.Machine.execAnd rd rn imm s
  | .or rd rn imm => Sys2Proof.Machine.execOr rd rn imm s
  | .xor rd rn imm => Sys2Proof.Machine.execXor rd rn imm s
  | .mul rd rn imm => Sys2Proof.Machine.execMul rd rn imm s
  | .mvn rd imm => Sys2Proof.Machine.execMvn rd imm s
  | .tst rn imm => Sys2Proof.Machine.execTst rn imm s
  | .lsl rd rn shamt => Sys2Proof.Machine.execLsl rd rn shamt s
  | .lsr rd rn shamt => Sys2Proof.Machine.execLsr rd rn shamt s
  | .ldr rd rn offset => Sys2Proof.Machine.execLdr rd rn offset s
  | .str rd rn offset => Sys2Proof.Machine.execStr rd rn offset s
  | .b offset => Sys2Proof.Machine.execB offset s
  | .bl offset => Sys2Proof.Machine.execBl offset s
  | .unknown => Sys2Proof.Machine.execUnknown s

end Sys2Proof.Machine
end

