-- ==== Sys2Proof/Machine/Cycle.lean ====
section
/-! DEFINITION. The fetch unit and the step cycle (40_fetch_and_step.md R100), and the trace record
a step exposes (R108). -/

namespace Sys2Proof.Machine

/-- Line 2: the word at `fpc`, by the same MemRead as a load (R101). -/
def fetch (s : State) : Except Fault Word := memRead s.fpc.toNat s

/-- Line 3: `x[15] <- p`, the fetch address (R102). -/
def loadPc (s : State) : State := setReg Config.pcIndex s.fpc s

/-- Line 7: `fpc <- (x[15] + 4) mod 2^32`, with `x[15]` as Execute left it (R104; log entry 3). -/
def advance (s : State) : State :=
  setFpc (reduce ((getReg Config.pcIndex s).toNat + Config.wordBytes)) s

/-- Line 8, the halt test: UNKNOWN first, then the new `fpc` against IMAGE_LEN (R105). -/
def haltTest (op : Instr) (s : State) : State :=
  if op = .unknown then setRun .haltedUnknown s
  else if s.imageLen ≤ s.fpc.toNat then setRun .haltedNormal s
  else s

/-- Lines 3, 6, 7 and 8 for an operation that stands at `fpc`: what a step does once it has its
operation. It is also how a B or BL, which no word decodes to, is presented (44_branch.md R165). A
fault of Execute is taken in the state that line 3 left (60_exceptions.md R182; log entry 6). -/
def runOperation (op : Instr) (s : State) : Host.Outcome State Fault Refusal :=
  match exec op (loadPc s) with
  | .next t => .next (haltTest op (advance t))
  | .fault kind => .next (takeFault kind (loadPc s))
  | .refused r => .refused r

/-- A step of a running block: fetch, then the operation decoded. A fetch fault is taken before
line 3 (R101). -/
def runStep (s : State) : Host.Outcome State Fault Refusal :=
  match fetch s with
  | .ok w => runOperation (decode w) s
  | .error kind => .next (takeFault kind s)

/-- `Step()` (R100). The three terminal states are absorbing: nothing changes (R106; log entry 5). -/
def cycle (s : State) : Host.Outcome State Fault Refusal :=
  match s.run with
  | .running => runStep s
  | .haltedNormal => .next s
  | .haltedUnknown => .next s
  | .faulted _ => .next s

/-- A trace record: the fetched address and the decoded operation (R108). -/
structure TraceRecord where
  /-- The address the word was fetched from. -/
  addr : Word
  /-- The operation it decoded to, with its operand fields. -/
  op : Instr
deriving DecidableEq, Repr

/-- Line 5: the record the step from this state exposes. There is one for every step that passes the
fetch, also for UNKNOWN and for a faulting LDR or STR, and none otherwise (R108). -/
def traceRecord (s : State) : Option TraceRecord :=
  match s.run with
  | .running =>
    match fetch s with
    | .ok w => some { addr := s.fpc, op := decode w }
    | .error _ => none
  | .haltedNormal => none
  | .haltedUnknown => none
  | .faulted _ => none

/-- The observation of a run (10_state.md R39) up to a number of steps: the trace and the state it
ends in, from which the driver reads `run`, registers, flags, memory and `fpc`. -/
def observe : Nat → State → List TraceRecord × State
  | 0, s => ([], s)
  | n + 1, s =>
    match cycle s with
    | .next t => ((traceRecord s).toList ++ (observe n t).1, (observe n t).2)
    | .fault _ => ([], s)
    | .refused _ => ([], s)

end Sys2Proof.Machine
end

