-- ==== Sys2Proof/Machine/Reset.lean ====
section
/-! DEFINITION. The reset of an instance with a program image, a function from (MEM_CAPACITY, IMAGE)
to the initial state (70_reset_and_hazards.md R200 to R203). `State.reset` is this reset at the
default capacity with the empty image. -/

namespace Sys2Proof.Machine

/-- `run` after reset (10_state.md R40). -/
def runAtReset (memCapacity imageLen : Nat) : RunState :=
  if memCapacity < imageLen then .faulted .imageTooLarge
  else if imageLen = 0 then .haltedNormal
  else .running

/-- Memory after reset: the image at address 0 and zeros after it (20_memory.md R68). For an image
longer than the memory every byte is a free value (R69; log entry 2). -/
def memAtReset (memCapacity : Nat) (image : List Byte) : Memory :=
  if memCapacity < image.length then
    Memory.writeBytes [] 0
      ((List.range memCapacity).map (Config.oversizeImageByte image memCapacity))
  else Memory.writeBytes [] 0 image

/-- Reset (70_reset_and_hazards.md R200). -/
def resetWith (memCapacity : Nat) (image : List Byte) : State :=
  { State.reset with
    run := runAtReset memCapacity image.length
    mem := memAtReset memCapacity image
    memCapacity := memCapacity
    imageLen := image.length }

/-- The state in which a word stands at `fpc` and the block is RUNNING with an image and a memory that
reach over it. It stands for the load of an image from outside (20_memory.md R68; log entry 1). -/
def placeWord (w : Word) (s : State) : State :=
  { s with
    run := .running
    mem := s.mem.writeWord s.fpc.toNat w
    memCapacity := max s.memCapacity (s.fpc.toNat + Config.wordBytes)
    imageLen := max s.imageLen (s.fpc.toNat + Config.wordBytes) }

end Sys2Proof.Machine
end

