-- ==== Sys2Proof/Machine/Step.lean ====
section
/-! DEFINITION. The step the host runs, and where a program's next instruction is placed. -/

namespace Sys2Proof.Machine

/-- One step (40_fetch_and_step.md R100). -/
def step (s : State) : Host.Outcome State Fault Refusal := cycle s

/-- The state in which the very next step fetches and runs the opcode-table word (log entry 1). -/
def State.withFetchWord (s : State) (nbits w : Nat) : State := placeWord (tableWord nbits w) s

end Sys2Proof.Machine
end

