-- ==== Sys2Proof/Safety.lean ====
section
/-! DEFINITION. The terms claims are made in: how a run ends (60_exceptions.md R183), what two states
agree on, and the invariant of the block. -/

namespace Sys2Proof.Machine

/-- The run ended in one of the two expected halts (60_exceptions.md R183). -/
def State.EndedWell (s : State) : Prop := s.run = .haltedNormal ∨ s.run = .haltedUnknown

/-- The run ended with a fatal fault (60_exceptions.md R183). -/
def State.Faulted (s : State) : Prop := ∃ kind, s.run = .faulted kind

/-- Every register but those listed reads in t as in s. -/
def RegsKeptExcept (ds : List RegIdx) (s t : State) : Prop :=
  ∀ j, j ∉ ds → getReg j t = getReg j s

/-- Every byte of memory reads in t as in s. -/
def MemKept (s t : State) : Prop := ∀ a, t.mem.readByte a = s.mem.readByte a

/-- The four bytes from addr read in t as v, little-endian, and every other byte as in s. -/
def WordStored (addr : Nat) (v : Word) (s t : State) : Prop :=
  t.mem.readByte addr = v.extractLsb' 0 8 ∧ t.mem.readByte (addr + 1) = v.extractLsb' 8 8 ∧
  t.mem.readByte (addr + 2) = v.extractLsb' 16 8 ∧ t.mem.readByte (addr + 3) = v.extractLsb' 24 8 ∧
  ∀ a, a < addr ∨ addr + 4 ≤ a → t.mem.readByte a = s.mem.readByte a

/-- The fetch unit's state and the two parameters are the same in t as in s. -/
def ControlKept (s t : State) : Prop :=
  t.fpc = s.fpc ∧ t.run = s.run ∧ t.memCapacity = s.memCapacity ∧ t.imageLen = s.imageLen

/-- Z and N of t are those of the result r; C and V are those of s (41_data_processing.md R120). -/
def FlagsFrom (r : Word) (s t : State) : Prop :=
  (t.flags.z = true ↔ r.toNat = 0) ∧ (t.flags.n = true ↔ 2 ^ 31 ≤ r.toNat) ∧
  t.flags.c = s.flags.c ∧ t.flags.v = s.flags.v

/-- What an operation with destination rd and result r does, and all it does: rd holds r, the flags
are those of r, nothing else changes; when rd is 15 the advance that follows makes the next fetch come
from r + 4 modulo 2^32 (40_fetch_and_step.md R104, R110; the wrap is the spec's decision D3, log
entry 3). -/
def ResultWritten (rd : RegIdx) (r : Word) (s t : State) : Prop :=
  getReg rd t = r ∧ FlagsFrom r s t ∧ RegsKeptExcept [rd] s t ∧ MemKept s t ∧ ControlKept s t ∧
    (rd = 15#4 → (advance t).fpc.toNat = (r.toNat + 4) % 2 ^ 32)

/-- What an operation that only sets the flags from r does, and all it does. -/
def OnlyFlagsSet (r : Word) (s t : State) : Prop :=
  FlagsFrom r s t ∧ RegsKeptExcept [] s t ∧ MemKept s t ∧ ControlKept s t

/-- The registers an operation writes (10_state.md R23). -/
def regsWritten : Instr → List RegIdx
  | .mov rd _ => [rd]
  | .add rd _ _ => [rd]
  | .sub rd _ _ => [rd]
  | .cmp _ _ => []
  | .and rd _ _ => [rd]
  | .or rd _ _ => [rd]
  | .xor rd _ _ => [rd]
  | .mul rd _ _ => [rd]
  | .mvn rd _ => [rd]
  | .tst _ _ => []
  | .lsl rd _ _ => [rd]
  | .lsr rd _ _ => [rd]
  | .ldr rd _ _ => [rd]
  | .str _ _ _ => []
  | .b _ => [Config.pcIndex]
  | .bl _ => [Config.lrIndex, Config.pcIndex]
  | .unknown => []

/-- The registers an operation reads (10_state.md R23). -/
def regsRead : Instr → List RegIdx
  | .mov _ _ => []
  | .add _ rn _ => [rn]
  | .sub _ rn _ => [rn]
  | .cmp rn _ => [rn]
  | .and _ rn _ => [rn]
  | .or _ rn _ => [rn]
  | .xor _ rn _ => [rn]
  | .mul _ rn _ => [rn]
  | .mvn _ _ => []
  | .tst rn _ => [rn]
  | .lsl _ rn _ => [rn]
  | .lsr _ rn _ => [rn]
  | .ldr _ rn _ => [rn]
  | .str rd rn _ => [rn, rd]
  | .b _ => [Config.pcIndex]
  | .bl _ => [Config.pcIndex]
  | .unknown => []

/-- The bits of a word that its decoding may depend on: those outside are the "x" columns of
30_encoding.md R74, R76, R77 and w[31:28] (R81). -/
def examinedBits (w : Word) : Word :=
  if w &&& 0x02000000#32 = 0x02000000#32 then
    if w &&& 0x01E00000#32 = 0x00600000#32 then 0x03EFFFE0#32
    else if w &&& 0x01A00000#32 = 0x01A00000#32 then 0x03E0F0FF#32
    else if w &&& 0x01A00000#32 = 0x01000000#32 then 0x03EF00FF#32
    else 0x03EFF0FF#32
  else if w &&& 0x0C000000#32 = 0x04000000#32 then 0x0E1FFFFF#32
  else 0x0E000000#32

/-- The invariant of the block: what holds at reset and after every step. -/
structure State.Inv (s : State) : Prop where
  /-- Memory is in its canonical form. -/
  memWf : s.mem.wf = true
  /-- No listed byte lies outside the memory (10_state.md R35). -/
  memBelow : ∀ c ∈ s.mem, c.1 < s.memCapacity
  /-- The capacity is in its range (00_scope.md R9). -/
  capacityLe : s.memCapacity ≤ Config.maxMemCapacity
  /-- While RUNNING the next fetch starts inside the image (40_fetch_and_step.md R105). -/
  fpcInImage : s.run = .running → s.fpc.toNat < s.imageLen
  /-- The image fits, or the run is over because it did not (20_memory.md R69). -/
  imageFits : s.imageLen ≤ s.memCapacity ∨ s.run = .faulted .imageTooLarge
  /-- C and V are 0 (10_state.md R31). -/
  carryClear : s.flags.c = false
  /-- C and V are 0 (10_state.md R31). -/
  overflowClear : s.flags.v = false
  /-- N and Z are never both 1 (41_data_processing.md R120). -/
  notBothNZ : ¬ (s.flags.n = true ∧ s.flags.z = true)
  /-- An address fault records an address whose word is out of bounds (20_memory.md R54). -/
  faultOutside : ∀ a, s.run = .faulted (.memOutOfBounds a) → s.memCapacity < a + Config.wordBytes
  /-- No run ends in the register-index fault (10_state.md R22). -/
  noIndexFault : ∀ i, s.run ≠ .faulted (.regIndexOutOfRange i)

end Sys2Proof.Machine
end

