-- ==== Sys2Proof/Certificates/Slice0/Obligations.lean ====
section
/-! DEFINITION. What the provers are asked to prove, rule by rule of spec/: the step, the seventeen
operations, the memory, the register file, the faults, reset, and the whole-machine claims. -/

open Sys2Proof Sys2Proof.Machine

/-! ### The step -/

/-- A step of a RUNNING block runs the decoded operation: the word at `fpc` is decoded, executed with
`x[15]` holding `fpc`, `fpc` becomes `x[15] + 4` and the halt test follows; a fault of the operation
is taken in the state it started from; the step exposes its trace record (40_fetch_and_step.md
section 1). The `mod 2^32` of the advance, the state a fault leaves and the trace of a faulting step
are the spec's decisions D3, D9 and D21 (log entries 3, 6, 8). -/
def Obligations.StepRunsDecodedInstruction : Prop :=
  ∀ (s : State) (w : Word), s.run = .running → memRead s.fpc.toNat s = .ok w →
    (decode w).WellFormed ∧ traceRecord s = some { addr := s.fpc, op := decode w } ∧
    step s = match exec (decode w) (setReg 15#4 s.fpc s) with
      | .next t => .next
          { t with
            fpc := getReg 15#4 t + 4#32
            run := if decode w = .unknown then .haltedUnknown
              else if t.imageLen ≤ (getReg 15#4 t + 4#32).toNat then .haltedNormal
              else .running }
      | .fault kind => .next { setReg 15#4 s.fpc s with run := .faulted kind }
      | .refused r => .refused r

/-- A fetch out of bounds ends the run before anything else of the step happens, with no trace record
(40_fetch_and_step.md R101; the state left and the missing record are the spec's decisions D9 and
D21, log entries 6 and 8). -/
def Obligations.FetchOutOfBoundsFaults : Prop :=
  ∀ s : State, s.run = .running → s.memCapacity < s.fpc.toNat + 4 →
    step s = .next { s with run := .faulted (.memOutOfBounds s.fpc.toNat) } ∧ traceRecord s = none

/-- The terminal states are absorbing: no number of steps changes anything and no trace record is
made (40_fetch_and_step.md R106; that they absorb is the spec's decision D19, log entry 5). -/
def Obligations.TerminalStatesAbsorb : Prop :=
  ∀ (s : State) (n : Nat), s.run ≠ .running →
    Sys2Proof.core.run n s = .next s ∧ observe n s = ([], s)

/-- The halt test (40_fetch_and_step.md R105): after a step whose operation completed, the run is
HALTED_UNKNOWN when the operation was UNKNOWN, whatever `fpc` is, else HALTED_NORMAL when the new
`fpc` is at or past IMAGE_LEN, compared as unsigned integers, else RUNNING. Nothing is tested before
the fetch: no premise relates the old `fpc` to IMAGE_LEN. -/
def Obligations.HaltTestAfterStep : Prop :=
  ∀ (s u : State) (w : Word), s.run = .running → memRead s.fpc.toNat s = .ok w →
    exec (decode w) (setReg 15#4 s.fpc s) = .next u →
    ∃ t, step s = .next t ∧
      (decode w = .unknown → t.run = .haltedUnknown) ∧
      (decode w ≠ .unknown → s.imageLen ≤ t.fpc.toNat → t.run = .haltedNormal) ∧
      (decode w ≠ .unknown → t.fpc.toNat < s.imageLen → t.run = .running)

/-- Where the next fetch comes from (10_state.md R27, 40_fetch_and_step.md section 2): after a step
that did not fault `fpc` is `x[15] + 4`, and when the operation does not write `x[15]` that register
holds the address the operation was fetched from. The wrap of the sum is the spec's decision D3 (log
entry 3). -/
def Obligations.NextFetchAddress : Prop :=
  ∀ (s t : State) (w : Word), s.run = .running → memRead s.fpc.toNat s = .ok w →
    step s = .next t → ¬ t.Faulted →
    t.fpc = getReg 15#4 t + 4#32 ∧ (15#4 ∉ regsWritten (decode w) → getReg 15#4 t = s.fpc)

/-- Every step of every state answers a next state: no word is refused and a fault is a state of the
run (10_state.md R41: a step is a function from the state tuple to the state tuple). -/
def Obligations.StepIsTotal : Prop := ∀ s : State, ∃ t, step s = .next t

/-- The execution units never read or write `fpc` or `run`, never write the two parameters, and refuse
nothing (40_fetch_and_step.md R103, last sentence). LDR and STR do read MEM_CAPACITY. -/
def Obligations.UnitsIgnoreFetchState : Prop :=
  ∀ (i : Instr) (s : State) (a : Word) (r : RunState),
    match exec i s with
    | .next t => ControlKept s t ∧ exec i (setRun r (setFpc a s)) = .next (setRun r (setFpc a t))
    | .fault kind => exec i (setRun r (setFpc a s)) = .fault kind
    | .refused _ => False

/-! ### Data processing and shifts -/

/-- UpdateFlags on any 32-bit result: Z and N are those of the result and never both 1, C and V and
everything else stay (41_data_processing.md section 1; that a result is reduced before its flags are
taken is the spec's decision D5, log entry 7). -/
def Obligations.UpdateFlagsSetsZeroAndNegative : Prop :=
  ∀ (r : Word) (s : State),
    OnlyFlagsSet r s (updateFlags r s) ∧
    ¬ ((updateFlags r s).flags.n = true ∧ (updateFlags r s).flags.z = true)

/-- MOV (41_data_processing.md R122). Index 15 is a destination like any other, here and below
(10_state.md R23); the rule itself gives the next fetch there, from imm + 4, which cannot wrap. -/
def Obligations.MovWritesImmediate : Prop :=
  (∀ (w : Word) (rd : RegIdx) (imm : BitVec 8), decode w = .mov rd imm ↔
    w &&& 0x03E00000#32 = 0x03A00000#32 ∧ rd = w.extractLsb' 12 4 ∧ imm = w.extractLsb' 0 8) ∧
  ∀ (rd : RegIdx) (imm : BitVec 8) (s : State), ∃ (t : State) (r : Word),
    exec (.mov rd imm) s = .next t ∧ r.toNat = imm.toNat ∧ ResultWritten rd r s t

/-- ADD (41_data_processing.md R123). Here and in SUB, OR, XOR, MUL and LSR, where the next fetch
comes from after a result written to `x[15]` is 40_fetch_and_step.md sections 1 and 2, with the spec's
decision D18 (log entry 7); that it wraps for a result of 0xFFFFFFFC or more is its decision D3 (log
entry 3). -/
def Obligations.AddWritesSum : Prop :=
  (∀ (w : Word) (rd rn : RegIdx) (imm : BitVec 8), decode w = .add rd rn imm ↔
    w &&& 0x03E00000#32 = 0x02800000#32 ∧ rd = w.extractLsb' 12 4 ∧ rn = w.extractLsb' 16 4 ∧
      imm = w.extractLsb' 0 8) ∧
  ∀ (rd rn : RegIdx) (imm : BitVec 8) (s : State), ∃ (t : State) (r : Word),
    exec (.add rd rn imm) s = .next t ∧
    r.toNat = ((getReg rn s).toNat + imm.toNat) % 2 ^ 32 ∧ ResultWritten rd r s t

/-- SUB (41_data_processing.md R124): the register is the minuend. The next fetch for destination 15 as
for ADD (decisions D3 and D18; log entries 3 and 7). -/
def Obligations.SubWritesDifference : Prop :=
  (∀ (w : Word) (rd rn : RegIdx) (imm : BitVec 8), decode w = .sub rd rn imm ↔
    w &&& 0x03E00000#32 = 0x02400000#32 ∧ rd = w.extractLsb' 12 4 ∧ rn = w.extractLsb' 16 4 ∧
      imm = w.extractLsb' 0 8) ∧
  ∀ (rd rn : RegIdx) (imm : BitVec 8) (s : State), ∃ (t : State) (r : Word),
    exec (.sub rd rn imm) s = .next t ∧
    (r.toNat : Int) = ((getReg rn s).toNat - imm.toNat : Int) % 2 ^ 32 ∧ ResultWritten rd r s t

/-- CMP (41_data_processing.md R125): the flags of the difference, and no register written whatever
w[15:12] holds. -/
def Obligations.CmpSetsFlagsOfDifference : Prop :=
  (∀ (w : Word) (rn : RegIdx) (imm : BitVec 8), decode w = .cmp rn imm ↔
    w &&& 0x03E00000#32 = 0x03400000#32 ∧ rn = w.extractLsb' 16 4 ∧ imm = w.extractLsb' 0 8) ∧
  ∀ (rn : RegIdx) (imm : BitVec 8) (s : State), ∃ (t : State) (r : Word),
    exec (.cmp rn imm) s = .next t ∧
    (r.toNat : Int) = ((getReg rn s).toNat - imm.toNat : Int) % 2 ^ 32 ∧ OnlyFlagsSet r s t

/-- AND (41_data_processing.md R126): bit by bit with the zero-extended immediate, so N is 0. The next
fetch for destination 15 is 40_fetch_and_step.md section 2 with the decision D18 (log entry 7). -/
def Obligations.AndWritesBitwiseAnd : Prop :=
  (∀ (w : Word) (rd rn : RegIdx) (imm : BitVec 8), decode w = .and rd rn imm ↔
    w &&& 0x03E00000#32 = 0x02000000#32 ∧ rd = w.extractLsb' 12 4 ∧ rn = w.extractLsb' 16 4 ∧
      imm = w.extractLsb' 0 8) ∧
  ∀ (rd rn : RegIdx) (imm : BitVec 8) (s : State), ∃ (t : State) (r : Word),
    exec (.and rd rn imm) s = .next t ∧
    (∀ k < 32, r.getLsbD k = ((getReg rn s).getLsbD k && imm.getLsbD k)) ∧
    ResultWritten rd r s t ∧ t.flags.n = false

/-- OR (41_data_processing.md R127). The next fetch for destination 15 as for ADD (decisions D3 and D18;
log entries 3 and 7). -/
def Obligations.OrWritesBitwiseOr : Prop :=
  (∀ (w : Word) (rd rn : RegIdx) (imm : BitVec 8), decode w = .or rd rn imm ↔
    w &&& 0x03E00000#32 = 0x03800000#32 ∧ rd = w.extractLsb' 12 4 ∧ rn = w.extractLsb' 16 4 ∧
      imm = w.extractLsb' 0 8) ∧
  ∀ (rd rn : RegIdx) (imm : BitVec 8) (s : State), ∃ (t : State) (r : Word),
    exec (.or rd rn imm) s = .next t ∧
    (∀ k < 32, r.getLsbD k = ((getReg rn s).getLsbD k || imm.getLsbD k)) ∧ ResultWritten rd r s t

/-- XOR (41_data_processing.md R128). The next fetch for destination 15 as for ADD (decisions D3 and
D18; log entries 3 and 7). -/
def Obligations.XorWritesBitwiseXor : Prop :=
  (∀ (w : Word) (rd rn : RegIdx) (imm : BitVec 8), decode w = .xor rd rn imm ↔
    w &&& 0x03E00000#32 = 0x02200000#32 ∧ rd = w.extractLsb' 12 4 ∧ rn = w.extractLsb' 16 4 ∧
      imm = w.extractLsb' 0 8) ∧
  ∀ (rd rn : RegIdx) (imm : BitVec 8) (s : State), ∃ (t : State) (r : Word),
    exec (.xor rd rn imm) s = .next t ∧
    (∀ k < 32, r.getLsbD k = ((getReg rn s).getLsbD k ^^ imm.getLsbD k)) ∧ ResultWritten rd r s t

/-- MUL (41_data_processing.md R129): the low 32 bits of the product. The next fetch for destination 15
as for ADD (decisions D3 and D18; log entries 3 and 7). -/
def Obligations.MulWritesLowProduct : Prop :=
  (∀ (w : Word) (rd rn : RegIdx) (imm : BitVec 8), decode w = .mul rd rn imm ↔
    w &&& 0x03E00000#32 = 0x02C00000#32 ∧ rd = w.extractLsb' 12 4 ∧ rn = w.extractLsb' 16 4 ∧
      imm = w.extractLsb' 0 8) ∧
  ∀ (rd rn : RegIdx) (imm : BitVec 8) (s : State), ∃ (t : State) (r : Word),
    exec (.mul rd rn imm) s = .next t ∧
    r.toNat = ((getReg rn s).toNat * imm.toNat) % 2 ^ 32 ∧ ResultWritten rd r s t

/-- MVN (41_data_processing.md R130): the complement of the zero-extended immediate, so Z is 0 and N
is 1. With destination 15 and an immediate above 3 the run halts normally for every image of up to
0xFFFFFF04 bytes. -/
def Obligations.MvnWritesComplement : Prop :=
  (∀ (w : Word) (rd : RegIdx) (imm : BitVec 8), decode w = .mvn rd imm ↔
    w &&& 0x03E00000#32 = 0x03E00000#32 ∧ rd = w.extractLsb' 12 4 ∧ imm = w.extractLsb' 0 8) ∧
  (∀ (rd : RegIdx) (imm : BitVec 8) (s : State), ∃ (t : State) (r : Word),
    exec (.mvn rd imm) s = .next t ∧ r.toNat = 0xFFFFFFFF - imm.toNat ∧ ResultWritten rd r s t ∧
    t.flags.z = false ∧ t.flags.n = true) ∧
  ∀ (imm : BitVec 8) (s : State), 3 < imm.toNat → s.imageLen ≤ 0xFFFFFF04 →
    ∃ t, runOperation (.mvn 15#4 imm) s = .next t ∧ t.run = .haltedNormal

/-- TST (41_data_processing.md R131): the flags of the conjunction, N always 0, and no register
written whatever w[15:12] holds. -/
def Obligations.TstSetsFlagsOfConjunction : Prop :=
  (∀ (w : Word) (rn : RegIdx) (imm : BitVec 8), decode w = .tst rn imm ↔
    w &&& 0x03E00000#32 = 0x03000000#32 ∧ rn = w.extractLsb' 16 4 ∧ imm = w.extractLsb' 0 8) ∧
  ∀ (rn : RegIdx) (imm : BitVec 8) (s : State), ∃ (t : State) (r : Word),
    exec (.tst rn imm) s = .next t ∧
    (∀ k < 32, r.getLsbD k = ((getReg rn s).getLsbD k && imm.getLsbD k)) ∧
    OnlyFlagsSet r s t ∧ t.flags.n = false

/-- LSL (42_shifts.md R140): multiplication by a power of two, reduced. -/
def Obligations.LslWritesLeftShift : Prop :=
  (∀ (w : Word) (rd rn : RegIdx) (shamt : BitVec 5), decode w = .lsl rd rn shamt ↔
    w &&& 0x03E00060#32 = 0x02600000#32 ∧ rd = w.extractLsb' 12 4 ∧ rn = w.extractLsb' 16 4 ∧
      shamt = w.extractLsb' 7 5) ∧
  ∀ (rd rn : RegIdx) (shamt : BitVec 5) (s : State), ∃ (t : State) (r : Word),
    exec (.lsl rd rn shamt) s = .next t ∧
    r.toNat = ((getReg rn s).toNat * 2 ^ shamt.toNat) % 2 ^ 32 ∧ ResultWritten rd r s t

/-- LSR (42_shifts.md R141): the floor of the division by a power of two; N is 1 only when the amount
is 0 and bit 31 of the register is 1. The next fetch for destination 15 as for ADD (decisions D3 and
D18; log entries 3 and 7). -/
def Obligations.LsrWritesRightShift : Prop :=
  (∀ (w : Word) (rd rn : RegIdx) (shamt : BitVec 5), decode w = .lsr rd rn shamt ↔
    w &&& 0x03E00060#32 = 0x02600020#32 ∧ rd = w.extractLsb' 12 4 ∧ rn = w.extractLsb' 16 4 ∧
      shamt = w.extractLsb' 7 5) ∧
  ∀ (rd rn : RegIdx) (shamt : BitVec 5) (s : State), ∃ (t : State) (r : Word),
    exec (.lsr rd rn shamt) s = .next t ∧
    r.toNat = (getReg rn s).toNat / 2 ^ shamt.toNat ∧ ResultWritten rd r s t ∧
    (t.flags.n = true → shamt = 0#5 ∧ (getReg rn s).getLsbD 31 = true)

/-! ### Loads, stores, branches, UNKNOWN -/

/-- LDR (43_load_store.md R151): with the four bytes in bounds the little-endian word at the base plus
the unsigned offset goes to rd and nothing else changes; out of bounds it raises its fault and there
is no state with rd written. That a sum of 2^32 or more is not reduced is the spec's decision D4
(log entry 4). -/
def Obligations.LdrLoadsWord : Prop :=
  (∀ (w : Word) (rd rn : RegIdx) (offset : BitVec 12), decode w = .ldr rd rn offset ↔
    w &&& 0x0E100000#32 = 0x04100000#32 ∧ rd = w.extractLsb' 12 4 ∧ rn = w.extractLsb' 16 4 ∧
      offset = w.extractLsb' 0 12) ∧
  ∀ (rd rn : RegIdx) (offset : BitVec 12) (s : State) (addr : Nat),
    addr = effectiveAddress rn offset s →
    addr = (getReg rn s).toNat + offset.toNat ∧
    (addr + 4 ≤ s.memCapacity → ∃ t, exec (.ldr rd rn offset) s = .next t ∧
      (getReg rd t).toNat = (s.mem.readByte addr).toNat + 2 ^ 8 * (s.mem.readByte (addr + 1)).toNat +
        2 ^ 16 * (s.mem.readByte (addr + 2)).toNat + 2 ^ 24 * (s.mem.readByte (addr + 3)).toNat ∧
      t.flags = s.flags ∧ RegsKeptExcept [rd] s t ∧ MemKept s t ∧ ControlKept s t) ∧
    (s.memCapacity < addr + 4 → exec (.ldr rd rn offset) s = .fault (.memOutOfBounds addr))

/-- STR (43_load_store.md R152): with the four bytes in bounds the value of rd is stored little-endian
at the base plus the unsigned offset, no other byte, no register and no flag changes; out of bounds
it raises its fault and no byte is written. The memory is in its canonical form, which every step
keeps. That a sum of 2^32 or more is not reduced is the spec's decision D4 (log entry 4). -/
def Obligations.StrStoresWord : Prop :=
  (∀ (w : Word) (rd rn : RegIdx) (offset : BitVec 12), decode w = .str rd rn offset ↔
    w &&& 0x0E100000#32 = 0x04000000#32 ∧ rd = w.extractLsb' 12 4 ∧ rn = w.extractLsb' 16 4 ∧
      offset = w.extractLsb' 0 12) ∧
  ∀ (rd rn : RegIdx) (offset : BitVec 12) (s : State) (addr : Nat), s.mem.wf = true →
    addr = effectiveAddress rn offset s →
    addr = (getReg rn s).toNat + offset.toNat ∧
    (addr + 4 ≤ s.memCapacity → ∃ t, exec (.str rd rn offset) s = .next t ∧
      WordStored addr (getReg rd s) s t ∧
      t.flags = s.flags ∧ RegsKeptExcept [] s t ∧ ControlKept s t) ∧
    (s.memCapacity < addr + 4 → exec (.str rd rn offset) s = .fault (.memOutOfBounds addr))

/-- The addresses a load or store may reach (43_load_store.md R153): both complete exactly when the
address is at most MEM_CAPACITY - 4, raise MemOutOfBounds in every other case and nothing else, on
the address alone; IMAGE_LEN plays no part; with the default capacity the addresses are 0 to 4092. -/
def Obligations.LoadStoreReach : Prop :=
  ∀ (rd rn : RegIdx) (offset : BitVec 12) (s : State) (i : Instr),
    i = .ldr rd rn offset ∨ i = .str rd rn offset →
    ((∃ t, exec i s = .next t) ↔ effectiveAddress rn offset s + 4 ≤ s.memCapacity) ∧
    (∀ kind, exec i s = .fault kind ↔
      s.memCapacity < effectiveAddress rn offset s + 4 ∧
        kind = .memOutOfBounds (effectiveAddress rn offset s)) ∧
    (s.memCapacity = 4096 → ((∃ t, exec i s = .next t) ↔ effectiveAddress rn offset s ≤ 4092))

/-- An address sum of 2^32 or more never wraps to a low address: on every instance the load or store
faults with the unreduced sum. This is the spec's decision D4 (92_eei_decisions.md; log entry 4). -/
def Obligations.AddressSumNeverWraps : Prop :=
  ∀ (rd rn : RegIdx) (offset : BitVec 12) (s : State), s.memCapacity ≤ 2 ^ 32 →
    2 ^ 32 ≤ (getReg rn s).toNat + offset.toNat →
    exec (.ldr rd rn offset) s = .fault (.memOutOfBounds ((getReg rn s).toNat + offset.toNat)) ∧
    exec (.str rd rn offset) s = .fault (.memOutOfBounds ((getReg rn s).toNat + offset.toNat))

/-- B (44_branch.md R160): `x[15]` becomes `x[15] + offset - 4` modulo 2^32 and nothing else changes;
its word has the pattern 1010 in bits 27 to 24 and the offset divided by 4 in bits 23 to 0. -/
def Obligations.BranchWritesPcRegister : Prop :=
  ∀ (offset : BitVec 26) (s : State),
    encode (.b offset) &&& 0x0F000000#32 = 0x0A000000#32 ∧
    ((encode (.b offset)).extractLsb' 0 24).toNat = offset.toNat / 4 ∧
    ∃ t, exec (.b offset) s = .next t ∧
      ((getReg 15#4 t).toNat : Int) =
        ((getReg 15#4 s).toNat + offset.toNat - 4 : Int) % 2 ^ 32 ∧
      t.flags = s.flags ∧ RegsKeptExcept [15#4] s t ∧ MemKept s t ∧ ControlKept s t

/-- BL (44_branch.md R161): `x[14]` becomes the old `x[15] + 4` and `x[15]` the old
`x[15] + offset - 4`, modulo 2^32, and nothing else changes; its word has the pattern 1011. -/
def Obligations.BranchLinkWritesLinkRegister : Prop :=
  ∀ (offset : BitVec 26) (s : State),
    encode (.bl offset) &&& 0x0F000000#32 = 0x0B000000#32 ∧
    ((encode (.bl offset)).extractLsb' 0 24).toNat = offset.toNat / 4 ∧
    ∃ t, exec (.bl offset) s = .next t ∧
      (getReg 14#4 t).toNat = ((getReg 15#4 s).toNat + 4) % 2 ^ 32 ∧
      ((getReg 15#4 t).toNat : Int) =
        ((getReg 15#4 s).toNat + offset.toNat - 4 : Int) % 2 ^ 32 ∧
      t.flags = s.flags ∧ RegsKeptExcept [14#4, 15#4] s t ∧ MemKept s t ∧ ControlKept s t

/-- The branch offset law (44_branch.md R162): B at p, with the advance after it, makes the next fetch
come from `p + offset` modulo 2^32, for every p and every branch offset. -/
def Obligations.BranchOffsetLaw : Prop :=
  ∀ (offset : BitVec 26) (s : State), (Instr.b offset).WellFormed →
    (∃ t, exec (.b offset) s = .next t ∧
      (advance t).fpc.toNat = ((getReg 15#4 s).toNat + offset.toNat) % 2 ^ 32) ∧
    ∃ t, runOperation (.b offset) s = .next t ∧
      t.fpc.toNat = (s.fpc.toNat + offset.toNat) % 2 ^ 32

/-- The BL link law (44_branch.md R163): BL at p leaves `p + 4` in `x[14]`, whatever the offset, and
the next fetch comes from `p + offset`, modulo 2^32. -/
def Obligations.BranchLinkLaw : Prop :=
  ∀ (offset : BitVec 26) (s : State), (Instr.bl offset).WellFormed →
    ∃ t, runOperation (.bl offset) s = .next t ∧
      (getReg 14#4 t).toNat = (s.fpc.toNat + 4) % 2 ^ 32 ∧
      t.fpc.toNat = (s.fpc.toNat + offset.toNat) % 2 ^ 32

/-- UNKNOWN (45_unknown.md R170): executing it changes nothing; the step around it writes the fetch
address to `x[15]`, advances `fpc`, halts the run in HALTED_UNKNOWN whatever IMAGE_LEN is, changes
nothing else and exposes a trace record. -/
def Obligations.UnknownHaltsRun : Prop :=
  (∀ s : State, exec .unknown s = .next s) ∧
  ∀ (s : State) (w : Word), s.run = .running → memRead s.fpc.toNat s = .ok w →
    decode w = .unknown →
    step s = .next
      { setReg 15#4 s.fpc s with fpc := s.fpc + 4#32, run := .haltedUnknown } ∧
    traceRecord s = some { addr := s.fpc, op := .unknown }

/-! ### Whole-machine claims about flags, registers, memory and parameters -/

/-- The twelve flag-setting operations, and no others, write Z and N, from the 32-bit value they write
to their destination, or would write (CMP as SUB, TST as AND); bit 20 of a data-processing word
suppresses nothing (10_state.md R30). -/
def Obligations.FlagSettingOperations : Prop :=
  (∀ w : Word, w.getLsbD 25 = true → decode (w ^^^ 0x00100000#32) = decode w) ∧
  ∀ (i : Instr) (s t : State), exec i s = .next t →
    match i with
    | .mov rd _ => FlagsFrom (getReg rd t) s t
    | .add rd _ _ => FlagsFrom (getReg rd t) s t
    | .sub rd _ _ => FlagsFrom (getReg rd t) s t
    | .cmp rn imm => ∃ u, exec (.sub 0#4 rn imm) s = .next u ∧ FlagsFrom (getReg 0#4 u) s t
    | .and rd _ _ => FlagsFrom (getReg rd t) s t
    | .or rd _ _ => FlagsFrom (getReg rd t) s t
    | .xor rd _ _ => FlagsFrom (getReg rd t) s t
    | .mul rd _ _ => FlagsFrom (getReg rd t) s t
    | .mvn rd _ => FlagsFrom (getReg rd t) s t
    | .tst rn imm => ∃ u, exec (.and 0#4 rn imm) s = .next u ∧ FlagsFrom (getReg 0#4 u) s t
    | .lsl rd _ _ => FlagsFrom (getReg rd t) s t
    | .lsr rd _ _ => FlagsFrom (getReg rd t) s t
    | .ldr _ _ _ => t.flags = s.flags
    | .str _ _ _ => t.flags = s.flags
    | .b _ => t.flags = s.flags
    | .bl _ => t.flags = s.flags
    | .unknown => t.flags = s.flags

/-- C and V are 0 at reset with any image, no step writes them, so they are 0 after any number of
steps from a reset (10_state.md R31). -/
def Obligations.CarryAndOverflowNeverWritten : Prop :=
  (∀ s t : State, step s = .next t → t.flags.c = s.flags.c ∧ t.flags.v = s.flags.v) ∧
  ∀ (cap : Nat) (image : List Byte) (n : Nat),
    ∃ t, Sys2Proof.core.run n (resetWith cap image) = .next t ∧
      t.flags.c = false ∧ t.flags.v = false

/-- No instruction reads a flag (10_state.md R32): a step from a state with any other flags does the
same to everything but the flags. -/
def Obligations.NoStepReadsFlags : Prop :=
  ∀ (s t : State) (f : Flags), step s = .next t →
    ∃ u, step (setFlags f s) = .next u ∧ setFlags t.flags u = t

/-- An operation changes only the registers that 10_state.md R23 lists as written by it. -/
def Obligations.OnlyListedRegistersWritten : Prop :=
  ∀ (i : Instr) (s t : State), exec i s = .next t → RegsKeptExcept (regsWritten i) s t

/-- An operation reads only the registers that 10_state.md R23 lists as read by it: another value in
any other register changes neither whether it faults nor what it writes. -/
def Obligations.OnlyListedRegistersRead : Prop :=
  ∀ (i : Instr) (s : State) (j : RegIdx) (v : Word), j ∉ regsRead i →
    match exec i s with
    | .next t => ∃ u, exec i (setReg j v s) = .next u ∧ u.flags = t.flags ∧ u.mem = t.mem ∧
        ∀ d ∈ regsWritten i, getReg d u = getReg d t
    | .fault kind => exec i (setReg j v s) = .fault kind
    | .refused _ => False

/-- Only LDR and STR fault, with MemOutOfBounds at their own address (60_exceptions.md section 1). -/
def Obligations.OnlyLoadAndStoreFault : Prop :=
  ∀ (i : Instr) (s : State) (kind : Fault), exec i s = .fault kind →
    ∃ (rd rn : RegIdx) (offset : BitVec 12), (i = .ldr rd rn offset ∨ i = .str rd rn offset) ∧
      kind = .memOutOfBounds (effectiveAddress rn offset s) ∧
      s.memCapacity < effectiveAddress rn offset s + 4

/-- A byte of memory changes in a step only when the step executed an STR over it. -/
def Obligations.OnlyStoreChangesMemory : Prop :=
  ∀ (s t : State) (a : Nat), s.mem.wf = true → step s = .next t →
    t.mem.readByte a ≠ s.mem.readByte a →
    ∃ (w : Word) (rd rn : RegIdx) (offset : BitVec 12),
      memRead s.fpc.toNat s = .ok w ∧ decode w = .str rd rn offset ∧
      effectiveAddress rn offset (setReg 15#4 s.fpc s) ≤ a ∧
      a < effectiveAddress rn offset (setReg 15#4 s.fpc s) + 4

/-- MEM_CAPACITY and IMAGE_LEN do not change during a run (10_state.md section 9). -/
def Obligations.ParametersNeverChange : Prop :=
  ∀ s t : State, step s = .next t → t.memCapacity = s.memCapacity ∧ t.imageLen = s.imageLen

/-- A store is seen by the very next fetch (20_memory.md section 5): when an STR stores over the
address the next step fetches from, that step decodes the stored value. -/
def Obligations.StoreIsSeenByNextFetch : Prop :=
  ∀ (s t : State) (w : Word) (rd rn : RegIdx) (offset : BitVec 12), s.mem.wf = true →
    s.run = .running → memRead s.fpc.toNat s = .ok w → decode w = .str rd rn offset →
    step s = .next t → t.run = .running →
    t.fpc.toNat = effectiveAddress rn offset (setReg 15#4 s.fpc s) →
    memRead t.fpc.toNat t = .ok (getReg rd (setReg 15#4 s.fpc s)) ∧
    traceRecord t =
      some { addr := t.fpc, op := decode (getReg rd (setReg 15#4 s.fpc s)) }

/-! ### The register file and the memory -/

/-- A register write stores any integer modulo 2^32, a read returns the stored value, a 32-bit value
comes back unchanged, and no other register changes (10_state.md R21). -/
def Obligations.RegisterWriteIsMasked : Prop :=
  ∀ (i : RegIdx) (v : Int) (s : State),
    ((getReg i (writeReg i v s)).toNat : Int) = v % 2 ^ 32 ∧
    (0 ≤ v → v < 2 ^ 32 → ((getReg i (writeReg i v s)).toNat : Int) = v) ∧
    RegsKeptExcept [i] s (writeReg i v s)

/-- At the register file's own interface an index of 0 to 15 reads and writes its register and every
other index is a fault with the index (10_state.md section 1; the fault's name and its place are the
spec's decisions D13 and D17, log entry 9). -/
def Obligations.RegisterIndexFault : Prop :=
  ∀ (k : Nat) (v : Int) (s : State),
    (∀ h : k < 16, registerFileGet k s = .ok s.regs[k] ∧
      registerFileSet k v s = .ok { s with regs := s.regs.set k (BitVec.ofInt 32 v) }) ∧
    (16 ≤ k → registerFileGet k s = .error (.regIndexOutOfRange k) ∧
      registerFileSet k v s = .error (.regIndexOutOfRange k))

/-- MemRead (20_memory.md R52): out of bounds it raises MemOutOfBounds with the address, else it is
the sum of the four bytes, the byte at the lowest address least significant. -/
def Obligations.MemReadIsLittleEndian : Prop :=
  ∀ (addr : Nat) (s : State),
    (s.memCapacity < addr + 4 → memRead addr s = .error (.memOutOfBounds addr)) ∧
    (addr + 4 ≤ s.memCapacity → ∃ v, memRead addr s = .ok v ∧
      v.toNat = (s.mem.readByte addr).toNat + 2 ^ 8 * (s.mem.readByte (addr + 1)).toNat +
        2 ^ 16 * (s.mem.readByte (addr + 2)).toNat + 2 ^ 24 * (s.mem.readByte (addr + 3)).toNat)

/-- MemWrite (20_memory.md R53): out of bounds it raises MemOutOfBounds and there is no new state,
else it writes the four bytes little-endian and no other byte, register, flag or parameter. -/
def Obligations.MemWriteStoresFourBytes : Prop :=
  ∀ (addr : Nat) (v : Word) (s : State), s.mem.wf = true →
    (s.memCapacity < addr + 4 → memWrite addr v s = .error (.memOutOfBounds addr)) ∧
    (addr + 4 ≤ s.memCapacity → ∃ t, memWrite addr v s = .ok t ∧ WordStored addr v s t ∧
      t.regs = s.regs ∧ t.flags = s.flags ∧ ControlKept s t)

/-- Round trip and overlap (20_memory.md R57): a word written reads back, and a read at any other
address sees each byte as last written. -/
def Obligations.MemoryRoundTrip : Prop :=
  ∀ (addr : Nat) (v : Word) (s : State), s.mem.wf = true → addr + 4 ≤ s.memCapacity →
    ∃ t, memWrite addr v s = .ok t ∧ memRead addr t = .ok v ∧
      ∀ other, other + 4 ≤ s.memCapacity → ∃ u, memRead other t = .ok u ∧
        ∀ k < 4, u.extractLsb' (8 * k) 8 =
          if addr ≤ other + k ∧ other + k < addr + 4 then
            v.extractLsb' (8 * (other + k - addr)) 8
          else s.mem.readByte (other + k)

/-- The memory's canonical form is one: two canonical memories that read alike are the same list.
This is a claim about the model's own representation (log entry 10). -/
def Obligations.CanonicalMemoriesEqual : Prop :=
  ∀ m m' : Memory, m.wf = true → m'.wf = true → (∀ a, m.readByte a = m'.readByte a) → m = m'

/-! ### The decoder -/

/-- Decoding is right on words written out bit by bit from the formats of 30_encoding.md: one of each
format, the extremes of the fields, and a word that looks like a branch. -/
def Obligations.SampleWordsDecode : Prop :=
  decode 0b1110_00_1_1101_0_0000_0001_0000_00000100#32 = .mov 1#4 4#8 ∧
  decode 0b1110_00_1_0100_0_0001_0010_0000_00000011#32 = .add 2#4 1#4 3#8 ∧
  decode 0b1110_00_1_0011_0_0001_0010_11111_00_11111#32 = .lsl 2#4 1#4 31#5 ∧
  decode 0b1110_01_0_0000_1_1111_1111_111111111111#32 = .ldr 15#4 15#4 4095#12 ∧
  decode 0b1110_01_0_1100_0_0001_0010_000000000100#32 = .str 2#4 1#4 4#12 ∧
  decode 0b1110_1010_000000000000000000000010#32 = .and 0#4 0#4 2#8 ∧
  decode 0#32 = .unknown

/-- No word decodes to B or BL (30_encoding.md section 6; 90_conflicts.md C1; log entry 11). -/
def Obligations.DecodeNeverReturnsBranch : Prop :=
  ∀ (w : Word) (offset : BitVec 26), decode w ≠ .b offset ∧ decode w ≠ .bl offset

/-- The words that decode to UNKNOWN are exactly those of the table of 30_encoding.md section 7. That an
unlisted opcode or shift type is UNKNOWN at once is the spec's decision D10 (log entry 11). -/
def Obligations.UnknownWordsExactly : Prop :=
  ∀ w : Word, decode w = .unknown ↔
    (w.extractLsb' 25 1 = 1#1 ∧
      w.extractLsb' 21 4 ∈ [0b0101#4, 0b0111#4, 0b1001#4, 0b1011#4, 0b1110#4]) ∨
    (w.extractLsb' 25 1 = 1#1 ∧ w.extractLsb' 21 4 = 0b0011#4 ∧
      w.extractLsb' 5 2 ∈ [0b10#2, 0b11#2]) ∨
    (w.extractLsb' 25 1 = 0#1 ∧ w.extractLsb' 26 2 ∈ [0b00#2, 0b10#2, 0b11#2])

/-- Unexamined bits have no effect (30_encoding.md section 7): two words that agree on the bits the
first one's format examines decode to the same operation; w[31:28] are never among them. -/
def Obligations.UnexaminedBitsIgnored : Prop :=
  ∀ w w' : Word, w &&& examinedBits w = w' &&& examinedBits w → decode w' = decode w

/-- Every word decodes to a well-formed operation (30_encoding.md section 1). -/
def Obligations.DecodeIsWellFormed : Prop := ∀ w : Word, (decode w).WellFormed

/-- Decode and encode agree for every operation but B and BL, which no word decodes to, with every
operand at every value: as words, as bytes in memory order, and as an opcode-table word. The
unexamined bits of the encoding are the spec's decision D15 (log entry 12). -/
def Obligations.DecodeEncodeRoundTrip : Prop :=
  ∀ i : Instr, (∀ offset, i ≠ .b offset) → (∀ offset, i ≠ .bl offset) →
    decode (encode i) = i ∧ decodeBytes (encodeBytes i) = .ok (i, []) ∧
    decodeTableWord 32 (encode i).toNat = some i

/-! ### Reset and the invariant -/

/-- Reset with an image that fits (70_reset_and_hazards.md section 1): every register and flag is 0,
`fpc` is 0, and a non-empty image leaves the block RUNNING. -/
def Obligations.ResetClearsState : Prop :=
  ∀ (cap : Nat) (image : List Byte), 0 < image.length → image.length ≤ cap →
    (∀ i, getReg i (resetWith cap image) = 0#32) ∧
    (resetWith cap image).flags = { n := false, z := false, c := false, v := false } ∧
    (resetWith cap image).fpc = 0#32 ∧ (resetWith cap image).run = .running ∧
    (resetWith cap image).memCapacity = cap

/-- The image load (70_reset_and_hazards.md R201): the image's bytes stand from address 0, every other
byte reads 0, the image's length is recorded and no step changes it. -/
def Obligations.ResetLoadsImage : Prop :=
  (∀ (cap : Nat) (image : List Byte), image.length ≤ cap →
    (∀ (a : Nat) (h : a < image.length),
      (resetWith cap image).mem.readByte a = image[a]) ∧
    (∀ a, image.length ≤ a → (resetWith cap image).mem.readByte a = 0#8) ∧
    (resetWith cap image).imageLen = image.length) ∧
  ∀ s t : State, step s = .next t → t.imageLen = s.imageLen

/-- The two resets that take no step: the empty image halts normally and is the state after reset of
the model, and an image longer than the memory ends in its fault. These are the spec's decisions D7
and D8 (log entries 1 and 2); nothing is said of the memory in the second case. -/
def Obligations.ResetWithoutStep : Prop :=
  resetWith 4096 [] = State.reset ∧
  (∀ (cap : Nat), (resetWith cap []).run = .haltedNormal ∧
    step (resetWith cap []) = .next (resetWith cap [])) ∧
  ∀ (cap : Nat) (image : List Byte), cap < image.length →
    (resetWith cap image).run = .faulted .imageTooLarge ∧
    step (resetWith cap image) = .next (resetWith cap image)

/-- A word placed at `fpc` is what the very next step fetches and runs (the model's own interface to a
program loaded from outside, log entry 1). -/
def Obligations.PlacedWordIsFetched : Prop :=
  ∀ (s : State) (w : Word), s.mem.wf = true →
    (s.withFetchWord 32 w.toNat).run = .running ∧
    memRead (s.withFetchWord 32 w.toNat).fpc.toNat (s.withFetchWord 32 w.toNat) = .ok w ∧
    traceRecord (s.withFetchWord 32 w.toNat) = some { addr := s.fpc, op := decode w }

/-- The state after reset, that of the empty image (log entry 1), meets the invariant. -/
def Obligations.ResetMeetsInvariant : Prop := State.reset.Inv

/-- Reset with any image, on an instance of any capacity in range, meets the invariant. The empty image
and the oversize image are the spec's decisions D7 and D8 (log entries 1 and 2). -/
def Obligations.ResetWithImageMeetsInvariant : Prop :=
  ∀ (cap : Nat) (image : List Byte), cap ≤ 2 ^ 32 → (resetWith cap image).Inv

/-- Every step keeps the invariant: memory canonical and inside the capacity, a RUNNING block about to
fetch inside its image, C and V 0, N and Z not both 1, a recorded fault address out of bounds, and no
register-index fault. -/
def Obligations.StepKeepsInvariant : Prop :=
  ∀ s t : State, s.Inv → step s = .next t → t.Inv
end

