-- ==== Sys2Proof/Laws/State.lean ====
section
/-! SUPPORT. One lemma per field per update of State, each true by unfolding, for the simp set. -/

namespace Sys2Proof.Machine

variable (s : State)

@[simp] theorem setFlags_regs (f : Flags) : (setFlags f s).regs = s.regs := rfl
@[simp] theorem setFlags_flags (f : Flags) : (setFlags f s).flags = f := rfl
@[simp] theorem setFlags_fpc (f : Flags) : (setFlags f s).fpc = s.fpc := rfl
@[simp] theorem setFlags_run (f : Flags) : (setFlags f s).run = s.run := rfl
@[simp] theorem setFlags_mem (f : Flags) : (setFlags f s).mem = s.mem := rfl
@[simp] theorem setFlags_memCapacity (f : Flags) : (setFlags f s).memCapacity = s.memCapacity := rfl
@[simp] theorem setFlags_imageLen (f : Flags) : (setFlags f s).imageLen = s.imageLen := rfl

@[simp] theorem setFpc_regs (a : Word) : (setFpc a s).regs = s.regs := rfl
@[simp] theorem setFpc_flags (a : Word) : (setFpc a s).flags = s.flags := rfl
@[simp] theorem setFpc_fpc (a : Word) : (setFpc a s).fpc = a := rfl
@[simp] theorem setFpc_run (a : Word) : (setFpc a s).run = s.run := rfl
@[simp] theorem setFpc_mem (a : Word) : (setFpc a s).mem = s.mem := rfl
@[simp] theorem setFpc_memCapacity (a : Word) : (setFpc a s).memCapacity = s.memCapacity := rfl
@[simp] theorem setFpc_imageLen (a : Word) : (setFpc a s).imageLen = s.imageLen := rfl

@[simp] theorem setRun_regs (r : RunState) : (setRun r s).regs = s.regs := rfl
@[simp] theorem setRun_flags (r : RunState) : (setRun r s).flags = s.flags := rfl
@[simp] theorem setRun_fpc (r : RunState) : (setRun r s).fpc = s.fpc := rfl
@[simp] theorem setRun_run (r : RunState) : (setRun r s).run = r := rfl
@[simp] theorem setRun_mem (r : RunState) : (setRun r s).mem = s.mem := rfl
@[simp] theorem setRun_memCapacity (r : RunState) : (setRun r s).memCapacity = s.memCapacity := rfl
@[simp] theorem setRun_imageLen (r : RunState) : (setRun r s).imageLen = s.imageLen := rfl

@[simp] theorem setMem_regs (m : Memory) : (setMem m s).regs = s.regs := rfl
@[simp] theorem setMem_flags (m : Memory) : (setMem m s).flags = s.flags := rfl
@[simp] theorem setMem_fpc (m : Memory) : (setMem m s).fpc = s.fpc := rfl
@[simp] theorem setMem_run (m : Memory) : (setMem m s).run = s.run := rfl
@[simp] theorem setMem_mem (m : Memory) : (setMem m s).mem = m := rfl
@[simp] theorem setMem_memCapacity (m : Memory) : (setMem m s).memCapacity = s.memCapacity := rfl
@[simp] theorem setMem_imageLen (m : Memory) : (setMem m s).imageLen = s.imageLen := rfl

@[simp] theorem setReg_regs (i : RegIdx) (v : Word) : (setReg i v s).regs = s.regs.set i.toNat v := rfl
@[simp] theorem setReg_flags (i : RegIdx) (v : Word) : (setReg i v s).flags = s.flags := rfl
@[simp] theorem setReg_fpc (i : RegIdx) (v : Word) : (setReg i v s).fpc = s.fpc := rfl
@[simp] theorem setReg_run (i : RegIdx) (v : Word) : (setReg i v s).run = s.run := rfl
@[simp] theorem setReg_mem (i : RegIdx) (v : Word) : (setReg i v s).mem = s.mem := rfl
@[simp] theorem setReg_memCapacity (i : RegIdx) (v : Word) : (setReg i v s).memCapacity = s.memCapacity := rfl
@[simp] theorem setReg_imageLen (i : RegIdx) (v : Word) : (setReg i v s).imageLen = s.imageLen := rfl

end Sys2Proof.Machine
end

