-- ==== Sys2Proof/Laws/Registers.lean ====
section
/-! SUPPORT. The register file: reading after writing, the reduction, and what every update that is
not a register write leaves readable. -/

namespace Sys2Proof.Machine

@[simp] theorem getReg_setReg_same (i : RegIdx) (v : Word) (s : State) :
    getReg i (setReg i v s) = v := by
  simp [getReg]

theorem getReg_setReg_ne {i j : RegIdx} (h : j ≠ i) (v : Word) (s : State) :
    getReg j (setReg i v s) = getReg j s := by
  have hne : i.toNat ≠ j.toNat := fun e => h (BitVec.eq_of_toNat_eq e.symm)
  simp [getReg, Vector.getElem_set_ne _ _ hne]

theorem getReg_setReg (i j : RegIdx) (v : Word) (s : State) :
    getReg j (setReg i v s) = if j = i then v else getReg j s := by
  split
  · next h => subst h; simp
  · next h => exact getReg_setReg_ne h v s

@[simp] theorem getReg_setFlags (i : RegIdx) (f : Flags) (s : State) :
    getReg i (setFlags f s) = getReg i s := rfl
@[simp] theorem getReg_setFpc (i : RegIdx) (a : Word) (s : State) :
    getReg i (setFpc a s) = getReg i s := rfl
@[simp] theorem getReg_setRun (i : RegIdx) (r : RunState) (s : State) :
    getReg i (setRun r s) = getReg i s := rfl
@[simp] theorem getReg_setMem (i : RegIdx) (m : Memory) (s : State) :
    getReg i (setMem m s) = getReg i s := rfl

/-- Two states with the same register reads hold the same register file. -/
theorem regs_eq_of_getReg {s t : State} (h : ∀ i, getReg i t = getReg i s) : t.regs = s.regs := by
  apply Vector.ext
  intro k hk
  have hm : k % 16 = k := Nat.mod_eq_of_lt hk
  have := h (BitVec.ofNat 4 k)
  simpa [getReg, hm] using this

/-- The reduction of a value that is already a natural number. -/
theorem reduce_natCast (n : Nat) : reduce (n : Int) = BitVec.ofNat 32 n := by
  simp [reduce]

@[simp] theorem reduce_toNat (w : Word) : reduce (w.toNat : Int) = w := by
  simp [reduce_natCast]

/-- The reduction as arithmetic: v mod 2^32. -/
theorem toNat_reduce (v : Int) : ((reduce v).toNat : Int) = v % 2 ^ 32 := by
  simp [reduce, BitVec.toNat_ofInt, Int.emod_nonneg]

end Sys2Proof.Machine
end

