-- ==== Sys2Proof/Laws/Flags.lean ====
section
/-! SUPPORT. What UpdateFlags and the end of an operation with a destination change. -/

namespace Sys2Proof.Machine

@[simp] theorem updateFlags_regs (r : Word) (s : State) : (updateFlags r s).regs = s.regs := rfl
@[simp] theorem updateFlags_fpc (r : Word) (s : State) : (updateFlags r s).fpc = s.fpc := rfl
@[simp] theorem updateFlags_run (r : Word) (s : State) : (updateFlags r s).run = s.run := rfl
@[simp] theorem updateFlags_mem (r : Word) (s : State) : (updateFlags r s).mem = s.mem := rfl
@[simp] theorem updateFlags_memCapacity (r : Word) (s : State) :
    (updateFlags r s).memCapacity = s.memCapacity := rfl
@[simp] theorem updateFlags_imageLen (r : Word) (s : State) :
    (updateFlags r s).imageLen = s.imageLen := rfl
@[simp] theorem updateFlags_flags (r : Word) (s : State) :
    (updateFlags r s).flags = flagsAfter r s.flags := rfl
@[simp] theorem getReg_updateFlags (i : RegIdx) (r : Word) (s : State) :
    getReg i (updateFlags r s) = getReg i s := rfl

@[simp] theorem flagsAfter_z (r : Word) (f : Flags) : (flagsAfter r f).z = (r == 0#32) := rfl
@[simp] theorem flagsAfter_n (r : Word) (f : Flags) : (flagsAfter r f).n = r.getLsbD 31 := rfl
@[simp] theorem flagsAfter_c (r : Word) (f : Flags) : (flagsAfter r f).c = f.c := rfl
@[simp] theorem flagsAfter_v (r : Word) (f : Flags) : (flagsAfter r f).v = f.v := rfl

@[simp] theorem writeResult_fpc (rd : RegIdx) (r : Word) (s : State) :
    (writeResult rd r s).fpc = s.fpc := rfl
@[simp] theorem writeResult_run (rd : RegIdx) (r : Word) (s : State) :
    (writeResult rd r s).run = s.run := rfl
@[simp] theorem writeResult_mem (rd : RegIdx) (r : Word) (s : State) :
    (writeResult rd r s).mem = s.mem := rfl
@[simp] theorem writeResult_memCapacity (rd : RegIdx) (r : Word) (s : State) :
    (writeResult rd r s).memCapacity = s.memCapacity := rfl
@[simp] theorem writeResult_imageLen (rd : RegIdx) (r : Word) (s : State) :
    (writeResult rd r s).imageLen = s.imageLen := rfl
@[simp] theorem writeResult_flags (rd : RegIdx) (r : Word) (s : State) :
    (writeResult rd r s).flags = flagsAfter r s.flags := rfl

/-- All that a result does to the registers. -/
theorem getReg_writeResult (rd j : RegIdx) (r : Word) (s : State) :
    getReg j (writeResult rd r s) = if j = rd then r else getReg j s :=
  getReg_setReg rd j r s

end Sys2Proof.Machine
end

