-- ==== Sys2Proof/Laws/Decode.lean ====
section
/-! SUPPORT. The fields of the encoder's words, a field read from a masked comparison, and the bytes
of a word put together again. -/

namespace Sys2Proof

/-! ### Bytes and words -/

@[simp] theorem wordOfBytes_wordByte (v : Word) :
    wordOfBytes (wordByte v 0) (wordByte v 1) (wordByte v 2) (wordByte v 3) = v := by
  refine BitVec.eq_of_getLsbD_eq fun i hi => ?_
  simp only [wordOfBytes, wordByte, BitVec.getLsbD_append]
  interval_cases i <;> simp

/-- The value of a little-endian word (20_memory.md R52). -/
theorem toNat_wordOfBytes (b0 b1 b2 b3 : Byte) :
    (wordOfBytes b0 b1 b2 b3).toNat =
      b0.toNat + 2 ^ 8 * b1.toNat + 2 ^ 16 * b2.toNat + 2 ^ 24 * b3.toNat := by
  have h0 := b0.isLt
  have h1 := b1.isLt
  have h2 := b2.isLt
  simp only [wordOfBytes, BitVec.toNat_append]
  rw [← Nat.shiftLeft_add_eq_or_of_lt h2, ← Nat.shiftLeft_add_eq_or_of_lt h1,
    ← Nat.shiftLeft_add_eq_or_of_lt h0]
  simp only [Nat.shiftLeft_eq]
  omega

/-! ### A field of a word that a mask and a pattern fix -/

/-- Bits lo to lo + n - 1 of w are those of the pattern when the mask covers them. -/
theorem extractLsb'_of_mask {w mask pattern : Word} (h : w &&& mask = pattern) (lo n : Nat)
    (hm : mask.extractLsb' lo n = BitVec.allOnes n) :
    w.extractLsb' lo n = pattern.extractLsb' lo n := by
  rw [← h, BitVec.extractLsb'_and, hm, BitVec.and_allOnes]

/-! ### The fields of the encoder's words -/

section Dpi
variable (opcode : BitVec 4) (rn rd : RegIdx) (imm : BitVec 8)

@[simp] theorem iBit_encodeDpi : iBit (encodeDpi opcode rn rd imm) = 1#1 := by
  ext i hi; simp only [iBit, encodeDpi, BitVec.getElem_extractLsb', BitVec.getLsbD_append]
  interval_cases i; simp
@[simp] theorem opcodeOf_encodeDpi : opcodeOf (encodeDpi opcode rn rd imm) = opcode := by
  ext i hi; simp only [opcodeOf, encodeDpi, BitVec.getElem_extractLsb', BitVec.getLsbD_append]
  interval_cases i <;> simp
@[simp] theorem rnOf_encodeDpi : rnOf (encodeDpi opcode rn rd imm) = rn := by
  ext i hi; simp only [rnOf, encodeDpi, BitVec.getElem_extractLsb', BitVec.getLsbD_append]
  interval_cases i <;> simp
@[simp] theorem rdOf_encodeDpi : rdOf (encodeDpi opcode rn rd imm) = rd := by
  ext i hi; simp only [rdOf, encodeDpi, BitVec.getElem_extractLsb', BitVec.getLsbD_append]
  interval_cases i <;> simp
@[simp] theorem immOf_encodeDpi : immOf (encodeDpi opcode rn rd imm) = imm := by
  ext i hi; simp only [immOf, encodeDpi, BitVec.getElem_extractLsb', BitVec.getLsbD_append]
  interval_cases i <;> simp
end Dpi

section Shi
variable (shiftType : BitVec 2) (rn rd : RegIdx) (shamt : BitVec 5)

@[simp] theorem iBit_encodeShi : iBit (encodeShi shiftType rn rd shamt) = 1#1 := by
  ext i hi; simp only [iBit, encodeShi, BitVec.getElem_extractLsb', BitVec.getLsbD_append]
  interval_cases i; simp
@[simp] theorem opcodeOf_encodeShi : opcodeOf (encodeShi shiftType rn rd shamt) = 0b0011#4 := by
  ext i hi; simp only [opcodeOf, encodeShi, BitVec.getElem_extractLsb', BitVec.getLsbD_append]
  interval_cases i <;> simp
@[simp] theorem rnOf_encodeShi : rnOf (encodeShi shiftType rn rd shamt) = rn := by
  ext i hi; simp only [rnOf, encodeShi, BitVec.getElem_extractLsb', BitVec.getLsbD_append]
  interval_cases i <;> simp
@[simp] theorem rdOf_encodeShi : rdOf (encodeShi shiftType rn rd shamt) = rd := by
  ext i hi; simp only [rdOf, encodeShi, BitVec.getElem_extractLsb', BitVec.getLsbD_append]
  interval_cases i <;> simp
@[simp] theorem shamtOf_encodeShi : shamtOf (encodeShi shiftType rn rd shamt) = shamt := by
  ext i hi; simp only [shamtOf, encodeShi, BitVec.getElem_extractLsb', BitVec.getLsbD_append]
  interval_cases i <;> simp
@[simp] theorem shiftTypeOf_encodeShi :
    shiftTypeOf (encodeShi shiftType rn rd shamt) = shiftType := by
  ext i hi; simp only [shiftTypeOf, encodeShi, BitVec.getElem_extractLsb', BitVec.getLsbD_append]
  interval_cases i <;> simp
end Shi

section Ls
variable (l : BitVec 1) (rn rd : RegIdx) (offset : BitVec 12)

@[simp] theorem iBit_encodeLs : iBit (encodeLs l rn rd offset) = 0#1 := by
  ext i hi; simp only [iBit, encodeLs, BitVec.getElem_extractLsb', BitVec.getLsbD_append]
  interval_cases i; simp
@[simp] theorem lsClassOf_encodeLs : lsClassOf (encodeLs l rn rd offset) = 0b01#2 := by
  ext i hi; simp only [lsClassOf, encodeLs, BitVec.getElem_extractLsb', BitVec.getLsbD_append]
  interval_cases i <;> simp
@[simp] theorem lBit_encodeLs : lBit (encodeLs l rn rd offset) = l := by
  ext i hi; simp only [lBit, encodeLs, BitVec.getElem_extractLsb', BitVec.getLsbD_append]
  interval_cases i; simp
@[simp] theorem rnOf_encodeLs : rnOf (encodeLs l rn rd offset) = rn := by
  ext i hi; simp only [rnOf, encodeLs, BitVec.getElem_extractLsb', BitVec.getLsbD_append]
  interval_cases i <;> simp
@[simp] theorem rdOf_encodeLs : rdOf (encodeLs l rn rd offset) = rd := by
  ext i hi; simp only [rdOf, encodeLs, BitVec.getElem_extractLsb', BitVec.getLsbD_append]
  interval_cases i <;> simp
@[simp] theorem lsOffsetOf_encodeLs : lsOffsetOf (encodeLs l rn rd offset) = offset := by
  ext i hi; simp only [lsOffsetOf, encodeLs, BitVec.getElem_extractLsb', BitVec.getLsbD_append]
  interval_cases i <;> simp
end Ls

end Sys2Proof
end

