-- ==== Sys2Proof/Laws/Memory.lean ====
section
/-! SUPPORT. Memory: reading after writing one byte, every operation keeps the canonical form, and
the spec lemma of MemRead and MemWrite. -/

namespace Sys2Proof.Machine

/-! ### The canonical form -/

@[simp] theorem Memory.wfFrom_nil (lo : Nat) : Memory.wfFrom lo [] = true := rfl

theorem Memory.wfFrom_cons (lo a : Nat) (b : Byte) (m : Memory) :
    Memory.wfFrom lo ((a, b) :: m) = true ↔
      lo ≤ a ∧ b ≠ Config.unlistedByte ∧ Memory.wfFrom (a + 1) m = true := by
  simp [Memory.wfFrom, and_assoc]

theorem Memory.wfFrom_mono {lo lo' : Nat} (h : lo' ≤ lo) {m : Memory}
    (hm : Memory.wfFrom lo m = true) : Memory.wfFrom lo' m = true := by
  cases m with
  | nil => rfl
  | cons p m =>
    obtain ⟨a, b⟩ := p
    rw [Memory.wfFrom_cons] at *
    exact ⟨h.trans hm.1, hm.2⟩

/-- Below its bound a canonical memory lists nothing. -/
theorem Memory.readByte_below {lo a : Nat} {m : Memory} (hm : Memory.wfFrom lo m = true)
    (h : a < lo) : m.readByte a = Config.unlistedByte := by
  induction m generalizing lo with
  | nil => rfl
  | cons p m ih =>
    obtain ⟨c, d⟩ := p
    rw [Memory.wfFrom_cons] at hm
    have hne : c ≠ a := by omega
    simp only [Memory.readByte, hne, if_false]
    exact ih hm.2.2 (by omega)

theorem Memory.wfFrom_consByte {lo a : Nat} (b : Byte) {m : Memory} (hlo : lo ≤ a)
    (hm : Memory.wfFrom (a + 1) m = true) : Memory.wfFrom lo (Memory.consByte a b m) = true := by
  unfold Memory.consByte
  split
  · exact Memory.wfFrom_mono (by omega) hm
  · next hb => exact (Memory.wfFrom_cons ..).2 ⟨hlo, hb, hm⟩

theorem Memory.wfFrom_writeByte {lo a : Nat} (b : Byte) {m : Memory} (hlo : lo ≤ a)
    (hm : Memory.wfFrom lo m = true) : Memory.wfFrom lo (m.writeByte a b) = true := by
  induction m generalizing lo with
  | nil => exact Memory.wfFrom_consByte b hlo rfl
  | cons p m ih =>
    obtain ⟨c, d⟩ := p
    have h := (Memory.wfFrom_cons ..).1 hm
    unfold Memory.writeByte
    split
    · next hlt =>
      exact Memory.wfFrom_consByte b hlo ((Memory.wfFrom_cons ..).2 ⟨by omega, h.2.1, h.2.2⟩)
    · split
      · next heq => subst heq; exact Memory.wfFrom_consByte b hlo h.2.2
      · exact (Memory.wfFrom_cons ..).2 ⟨h.1, h.2.1, ih (by omega) h.2.2⟩

/-- Storing a byte keeps the canonical form. -/
theorem Memory.wf_writeByte {m : Memory} (hm : m.wf = true) (a : Nat) (b : Byte) :
    (m.writeByte a b).wf = true :=
  Memory.wfFrom_writeByte b (Nat.zero_le a) hm

/-- Storing a list of bytes keeps the canonical form. -/
theorem Memory.wf_writeBytes {m : Memory} (hm : m.wf = true) (a : Nat) (bs : List Byte) :
    (m.writeBytes a bs).wf = true := by
  induction bs generalizing m a with
  | nil => exact hm
  | cons b bs ih => exact ih (Memory.wf_writeByte hm a b) (a + 1)

/-- Storing a word keeps the canonical form. -/
theorem Memory.wf_writeWord {m : Memory} (hm : m.wf = true) (a : Nat) (v : Word) :
    (m.writeWord a v).wf = true :=
  Memory.wf_writeBytes hm a _

/-! ### Reading after writing -/

theorem Memory.readByte_consByte {a : Nat} (b : Byte) {m : Memory}
    (hm : Memory.wfFrom (a + 1) m = true) (k : Nat) :
    (Memory.consByte a b m).readByte k = if k = a then b else m.readByte k := by
  unfold Memory.consByte
  split
  · next hb =>
    subst hb
    split
    · next hk => subst hk; exact Memory.readByte_below hm (Nat.lt_succ_self k)
    · rfl
  · simp only [Memory.readByte, eq_comm]

theorem Memory.readByte_writeByte_from {lo : Nat} {m : Memory} (hm : Memory.wfFrom lo m = true)
    (a : Nat) (b : Byte) (k : Nat) :
    (m.writeByte a b).readByte k = if k = a then b else m.readByte k := by
  induction m generalizing lo with
  | nil => exact Memory.readByte_consByte b rfl k
  | cons p m ih =>
    obtain ⟨c, d⟩ := p
    have h := (Memory.wfFrom_cons ..).1 hm
    unfold Memory.writeByte
    split
    · next hlt =>
      exact Memory.readByte_consByte b ((Memory.wfFrom_cons ..).2 ⟨by omega, h.2.1, h.2.2⟩) k
    · split
      · next heq =>
        subst heq
        rw [Memory.readByte_consByte b h.2.2 k]
        split
        · rfl
        · next hk => simp [Memory.readByte, Ne.symm hk]
      · next hne =>
        simp only [Memory.readByte, ih h.2.2]
        split
        · next hck => subst hck; simp [Ne.symm hne]
        · rfl

/-- One byte after a one-byte store: the stored byte at its address, the old byte elsewhere. -/
theorem Memory.readByte_writeByte {m : Memory} (hm : m.wf = true) (a : Nat) (b : Byte) (k : Nat) :
    (m.writeByte a b).readByte k = if k = a then b else m.readByte k :=
  Memory.readByte_writeByte_from hm a b k

/-- One byte after a store of a list of bytes. -/
theorem Memory.readByte_writeBytes {m : Memory} (hm : m.wf = true) (a : Nat) (bs : List Byte)
    (k : Nat) :
    (m.writeBytes a bs).readByte k =
      if a ≤ k ∧ k < a + bs.length then bs.getD (k - a) Config.unlistedByte else m.readByte k := by
  induction bs generalizing m a with
  | nil => simp [Memory.writeBytes]
  | cons b bs ih =>
    rw [Memory.writeBytes, ih (Memory.wf_writeByte hm a b), Memory.readByte_writeByte hm]
    simp only [List.length_cons]
    by_cases hk : k = a
    · subst hk; simp
    · by_cases h : a + 1 ≤ k ∧ k < a + 1 + bs.length
      · have h' : a ≤ k ∧ k < a + (bs.length + 1) := by omega
        obtain ⟨j, rfl⟩ : ∃ j, k = a + 1 + j := ⟨k - (a + 1), by omega⟩
        have e : a + 1 + j - a = j + 1 := by omega
        rw [if_pos h, if_pos h', e]
        simp
      · have h' : ¬ (a ≤ k ∧ k < a + (bs.length + 1)) := by omega
        rw [if_neg h, if_neg h', if_neg hk]

/-- One byte after a store of a word: byte `k - addr` of the word over its four addresses, the old
byte elsewhere. -/
theorem Memory.readByte_writeWord {m : Memory} (hm : m.wf = true) (addr : Nat) (v : Word) (k : Nat) :
    (m.writeWord addr v).readByte k =
      if addr ≤ k ∧ k < addr + 4 then wordByte v (k - addr) else m.readByte k := by
  have hlen : (wordBytes v).length = 4 := rfl
  rw [Memory.writeWord, Memory.readByte_writeBytes hm, hlen]
  by_cases h : addr ≤ k ∧ k < addr + 4
  · rw [if_pos h, if_pos h]
    obtain ⟨j, rfl⟩ : ∃ j, k = addr + j := ⟨k - addr, by omega⟩
    have hj : j < 4 := by omega
    rw [Nat.add_sub_cancel_left]
    interval_cases j <;> rfl
  · rw [if_neg h, if_neg h]

/-- A word stored and loaded at one address comes back. -/
theorem Memory.readWord_writeWord {m : Memory} (hm : m.wf = true) (addr : Nat) (v : Word) :
    (m.writeWord addr v).readWord addr = v := by
  have h0 : addr ≤ addr ∧ addr < addr + 4 := by omega
  have h1 : addr ≤ addr + 1 ∧ addr + 1 < addr + 4 := by omega
  have h2 : addr ≤ addr + 2 ∧ addr + 2 < addr + 4 := by omega
  have h3 : addr ≤ addr + 3 ∧ addr + 3 < addr + 4 := by omega
  simp only [Memory.readWord, Memory.readByte_writeWord hm, if_pos h0, if_pos h1, if_pos h2,
    if_pos h3, Nat.sub_self, Nat.add_sub_cancel_left, wordOfBytes_wordByte]

/-- The cells of a memory after a one-byte store are old ones or the stored one. -/
theorem Memory.mem_writeByte {m : Memory} {a : Nat} {b : Byte} {c : Host.Cell}
    (h : c ∈ m.writeByte a b) : c ∈ m ∨ c = (a, b) := by
  have hcons : ∀ m' : Memory, c ∈ Memory.consByte a b m' → c ∈ m' ∨ c = (a, b) := by
    intro m' hc
    unfold Memory.consByte at hc
    split at hc
    · exact .inl hc
    · rcases List.mem_cons.1 hc with e | e
      · exact .inr e
      · exact .inl e
  induction m with
  | nil => exact hcons [] h
  | cons p m ih =>
    obtain ⟨x, y⟩ := p
    unfold Memory.writeByte at h
    split at h
    · exact hcons _ h
    · split at h
      · rcases hcons _ h with e | e
        · exact .inl (List.mem_cons_of_mem _ e)
        · exact .inr e
      · rcases List.mem_cons.1 h with e | e
        · exact .inl (e ▸ List.mem_cons_self)
        · rcases ih e with e' | e'
          · exact .inl (List.mem_cons_of_mem _ e')
          · exact .inr e'

/-- The addresses listed after a store of a list of bytes stay below any bound that the store
stays below. -/
theorem Memory.below_writeBytes {m : Memory} {a cap : Nat} {bs : List Byte}
    (hm : ∀ c ∈ m, c.1 < cap) (h : a + bs.length ≤ cap) :
    ∀ c ∈ m.writeBytes a bs, c.1 < cap := by
  induction bs generalizing m a with
  | nil => exact hm
  | cons b bs ih =>
    rw [List.length_cons] at h
    refine ih (fun c hc => ?_) (by omega)
    rcases Memory.mem_writeByte hc with e | e
    · exact hm c e
    · subst e; show a < cap; omega

/-! ### The primitives -/

theorem inBounds_iff (addr : Nat) (s : State) : inBounds addr s = true ↔ addr + 4 ≤ s.memCapacity := by
  simp [inBounds]

/-- All that MemRead can answer. -/
theorem memRead_eq (addr : Nat) (s : State) :
    memRead addr s = if addr + 4 ≤ s.memCapacity then .ok (s.mem.readWord addr)
      else .error (.memOutOfBounds addr) := by
  simp [memRead, inBounds_iff]

/-- All that MemWrite can answer. -/
theorem memWrite_eq (addr : Nat) (v : Word) (s : State) :
    memWrite addr v s = if addr + 4 ≤ s.memCapacity then .ok (setMem (s.mem.writeWord addr v) s)
      else .error (.memOutOfBounds addr) := by
  simp [memWrite, inBounds_iff]

theorem memRead_of_le {addr : Nat} {s : State} (h : addr + 4 ≤ s.memCapacity) :
    memRead addr s = .ok (s.mem.readWord addr) := by
  rw [memRead_eq, if_pos h]

theorem memRead_of_lt {addr : Nat} {s : State} (h : s.memCapacity < addr + 4) :
    memRead addr s = .error (.memOutOfBounds addr) := by
  rw [memRead_eq, if_neg (Nat.not_le.2 h)]

theorem memWrite_of_le {addr : Nat} {s : State} (v : Word) (h : addr + 4 ≤ s.memCapacity) :
    memWrite addr v s = .ok (setMem (s.mem.writeWord addr v) s) := by
  rw [memWrite_eq, if_pos h]

theorem memWrite_of_lt {addr : Nat} {s : State} (v : Word) (h : s.memCapacity < addr + 4) :
    memWrite addr v s = .error (.memOutOfBounds addr) := by
  rw [memWrite_eq, if_neg (Nat.not_le.2 h)]

theorem memRead_ok_iff {addr : Nat} {s : State} {v : Word} :
    memRead addr s = .ok v ↔ addr + 4 ≤ s.memCapacity ∧ v = s.mem.readWord addr := by
  rw [memRead_eq]
  split
  · next h => simp [h, eq_comm]
  · next h => simp [h]

theorem memWrite_ok_iff {addr : Nat} {v : Word} {s t : State} :
    memWrite addr v s = .ok t ↔
      addr + 4 ≤ s.memCapacity ∧ t = setMem (s.mem.writeWord addr v) s := by
  rw [memWrite_eq]
  split
  · next h => simp [h, eq_comm]
  · next h => simp [h]

/-- MemRead depends on the memory and its capacity alone. -/
theorem memRead_congr {s t : State} (hm : t.mem = s.mem) (hc : t.memCapacity = s.memCapacity)
    (addr : Nat) : memRead addr t = memRead addr s := by
  rw [memRead_eq, memRead_eq, hm, hc]

end Sys2Proof.Machine
end

