-- ==== Sys2Proof/Laws/Cycle.lean ====
section
/-! SUPPORT. The units' shared answers, the parts of a step, and everything a step can do. -/

namespace Sys2Proof.Machine

/-! ### The load_store_unit -/

@[simp] theorem orFault_ok (t : State) : orFault (.ok t) = .next t := rfl
@[simp] theorem orFault_error (k : Fault) : orFault (.error k) = .fault k := rfl

/-- All that LDR can answer. -/
theorem execLdr_eq (rd rn : RegIdx) (offset : BitVec 12) (s : State) :
    execLdr rd rn offset s =
      if effectiveAddress rn offset s + 4 ≤ s.memCapacity then
        .next (setReg rd (s.mem.readWord (effectiveAddress rn offset s)) s)
      else .fault (.memOutOfBounds (effectiveAddress rn offset s)) := by
  rw [execLdr, memRead_eq]
  split <;> rfl

/-- All that STR can answer. -/
theorem execStr_eq (rd rn : RegIdx) (offset : BitVec 12) (s : State) :
    execStr rd rn offset s =
      if effectiveAddress rn offset s + 4 ≤ s.memCapacity then
        .next (setMem (s.mem.writeWord (effectiveAddress rn offset s) (getReg rd s)) s)
      else .fault (.memOutOfBounds (effectiveAddress rn offset s)) := by
  rw [execStr, memWrite_eq]
  split <;> rfl

theorem execLdr_of_le {rd rn : RegIdx} {offset : BitVec 12} {s : State}
    (h : effectiveAddress rn offset s + 4 ≤ s.memCapacity) :
    execLdr rd rn offset s =
      .next (setReg rd (s.mem.readWord (effectiveAddress rn offset s)) s) := by
  rw [execLdr_eq, if_pos h]

theorem execLdr_of_lt {rd rn : RegIdx} {offset : BitVec 12} {s : State}
    (h : s.memCapacity < effectiveAddress rn offset s + 4) :
    execLdr rd rn offset s = .fault (.memOutOfBounds (effectiveAddress rn offset s)) := by
  rw [execLdr_eq, if_neg (Nat.not_le.2 h)]

theorem execStr_of_le {rd rn : RegIdx} {offset : BitVec 12} {s : State}
    (h : effectiveAddress rn offset s + 4 ≤ s.memCapacity) :
    execStr rd rn offset s =
      .next (setMem (s.mem.writeWord (effectiveAddress rn offset s) (getReg rd s)) s) := by
  rw [execStr_eq, if_pos h]

theorem execStr_of_lt {rd rn : RegIdx} {offset : BitVec 12} {s : State}
    (h : s.memCapacity < effectiveAddress rn offset s + 4) :
    execStr rd rn offset s = .fault (.memOutOfBounds (effectiveAddress rn offset s)) := by
  rw [execStr_eq, if_neg (Nat.not_le.2 h)]

/-! ### The parts of a step -/

@[simp] theorem loadPc_flags (s : State) : (loadPc s).flags = s.flags := rfl
@[simp] theorem loadPc_fpc (s : State) : (loadPc s).fpc = s.fpc := rfl
@[simp] theorem loadPc_run (s : State) : (loadPc s).run = s.run := rfl
@[simp] theorem loadPc_mem (s : State) : (loadPc s).mem = s.mem := rfl
@[simp] theorem loadPc_memCapacity (s : State) : (loadPc s).memCapacity = s.memCapacity := rfl
@[simp] theorem loadPc_imageLen (s : State) : (loadPc s).imageLen = s.imageLen := rfl
theorem getReg_loadPc (j : RegIdx) (s : State) :
    getReg j (loadPc s) = if j = Config.pcIndex then s.fpc else getReg j s :=
  getReg_setReg Config.pcIndex j s.fpc s

/-- During an instruction `x[15]` reads as the address it was fetched from (10_state.md R26). -/
@[simp] theorem getReg_pc_loadPc (s : State) : getReg Config.pcIndex (loadPc s) = s.fpc :=
  getReg_setReg_same Config.pcIndex s.fpc s

@[simp] theorem advance_regs (s : State) : (advance s).regs = s.regs := rfl
@[simp] theorem advance_flags (s : State) : (advance s).flags = s.flags := rfl
@[simp] theorem advance_run (s : State) : (advance s).run = s.run := rfl
@[simp] theorem advance_mem (s : State) : (advance s).mem = s.mem := rfl
@[simp] theorem advance_memCapacity (s : State) : (advance s).memCapacity = s.memCapacity := rfl
@[simp] theorem advance_imageLen (s : State) : (advance s).imageLen = s.imageLen := rfl
@[simp] theorem getReg_advance (j : RegIdx) (s : State) : getReg j (advance s) = getReg j s := rfl
theorem advance_fpc (s : State) : (advance s).fpc = getReg Config.pcIndex s + 4#32 := by
  have h : ((getReg Config.pcIndex s).toNat : Int) + (Config.wordBytes : Nat) =
      ((getReg Config.pcIndex s).toNat + 4 : Nat) := by norm_num
  simp only [advance, setFpc_fpc, h, reduce_natCast, BitVec.ofNat_add, BitVec.ofNat_toNat,
    BitVec.setWidth_eq]

/-- The halt test changes the run state alone (40_fetch_and_step.md R105). -/
theorem haltTest_eq (op : Instr) (s : State) :
    haltTest op s = setRun (if op = .unknown then .haltedUnknown
      else if s.imageLen ≤ s.fpc.toNat then .haltedNormal else s.run) s := by
  unfold haltTest
  split
  · rfl
  · split <;> rfl

@[simp] theorem takeFault_regs (k : Fault) (s : State) : (takeFault k s).regs = s.regs := rfl
@[simp] theorem takeFault_flags (k : Fault) (s : State) : (takeFault k s).flags = s.flags := rfl
@[simp] theorem takeFault_fpc (k : Fault) (s : State) : (takeFault k s).fpc = s.fpc := rfl
@[simp] theorem takeFault_run (k : Fault) (s : State) : (takeFault k s).run = .faulted k := rfl
@[simp] theorem takeFault_mem (k : Fault) (s : State) : (takeFault k s).mem = s.mem := rfl
@[simp] theorem takeFault_memCapacity (k : Fault) (s : State) :
    (takeFault k s).memCapacity = s.memCapacity := rfl
@[simp] theorem takeFault_imageLen (k : Fault) (s : State) :
    (takeFault k s).imageLen = s.imageLen := rfl

/-! ### The step -/

theorem step_of_halted {s : State} (h : s.run ≠ .running) : step s = .next s := by
  unfold step cycle
  split
  · next hr => exact absurd hr h
  · rfl
  · rfl
  · rfl

theorem step_of_running {s : State} (h : s.run = .running) : step s = runStep s := by
  unfold step cycle
  rw [h]

/-- Everything an operation at `fpc` can do when it answers a next state. -/
theorem runOperation_cases {op : Instr} {s t : State} (h : runOperation op s = .next t) :
    (∃ u, exec op (loadPc s) = .next u ∧ t = haltTest op (advance u)) ∨
    (∃ k, exec op (loadPc s) = .fault k ∧ t = takeFault k (loadPc s)) := by
  unfold runOperation at h
  split at h
  · next u hu => exact .inl ⟨u, hu, (Host.Outcome.next.inj h).symm⟩
  · next k hk => exact .inr ⟨k, hk, (Host.Outcome.next.inj h).symm⟩
  · cases h

/-- Everything a step can do when it answers a next state: nothing in a terminal state, a fetch
fault, or the operation that stands at `fpc`. -/
theorem step_cases {s t : State} (h : step s = .next t) :
    (s.run ≠ .running ∧ t = s) ∨
    (s.run = .running ∧ ∃ k, fetch s = .error k ∧ t = takeFault k s) ∨
    (s.run = .running ∧ ∃ w, fetch s = .ok w ∧ runOperation (decode w) s = .next t) := by
  by_cases hr : s.run = .running
  · rw [step_of_running hr, runStep] at h
    split at h
    · next w hw => exact .inr (.inr ⟨hr, w, hw, h⟩)
    · next k hk => exact .inr (.inl ⟨hr, k, hk, (Host.Outcome.next.inj h).symm⟩)
  · rw [step_of_halted hr] at h
    exact .inl ⟨hr, (Host.Outcome.next.inj h).symm⟩

end Sys2Proof.Machine
end

