-- ==== Sys2Proof/Laws/PerInstr.lean ====
section
/-! SUPPORT. The family MatchesRow: every operation's encoding lies in the region of words that
spec/opcode_table.json gives its mnemonic, `w & mask == match` (30_encoding.md R89). -/

namespace Sys2Proof.Laws

/-- The mask of an operation's row of the opcode table; for UNKNOWN the row of the canonical word
0x00000000. -/
def rowMask : Instr → Word
  | .mov _ _ | .add _ _ _ | .sub _ _ _ | .cmp _ _ | .and _ _ _ | .or _ _ _ | .xor _ _ _
  | .mul _ _ _ | .mvn _ _ | .tst _ _ => 0x03E00000#32
  | .lsl _ _ _ | .lsr _ _ _ => 0x03E00060#32
  | .ldr _ _ _ | .str _ _ _ => 0x0E100000#32
  | .b _ | .bl _ => 0x0F000000#32
  | .unknown => 0x0E000000#32

/-- The match value of an operation's row of the opcode table. -/
def rowMatch : Instr → Word
  | .mov _ _ => 0x03A00000#32
  | .add _ _ _ => 0x02800000#32
  | .sub _ _ _ => 0x02400000#32
  | .cmp _ _ => 0x03400000#32
  | .and _ _ _ => 0x02000000#32
  | .or _ _ _ => 0x03800000#32
  | .xor _ _ _ => 0x02200000#32
  | .mul _ _ _ => 0x02C00000#32
  | .mvn _ _ => 0x03E00000#32
  | .tst _ _ => 0x03000000#32
  | .lsl _ _ _ => 0x02600000#32
  | .lsr _ _ _ => 0x02600020#32
  | .ldr _ _ _ => 0x04100000#32
  | .str _ _ _ => 0x04000000#32
  | .b _ => 0x0A000000#32
  | .bl _ => 0x0B000000#32
  | .unknown => 0x00000000#32

/-- A word of format DPI under the DPI rows' mask keeps its i_bit and its opcode. -/
theorem encodeDpi_masked (opcode : BitVec 4) (rn rd : RegIdx) (imm : BitVec 8) :
    encodeDpi opcode rn rd imm &&& 0x03E00000#32 = 0b000000#6 ++ 1#1 ++ opcode ++ 0#21 := by
  refine BitVec.eq_of_getLsbD_eq fun i hi => ?_
  simp only [encodeDpi, BitVec.getLsbD_and, BitVec.getLsbD_append]
  interval_cases i <;> simp

/-- A word of format SHI under the shift rows' mask keeps its i_bit, opcode and shift type. -/
theorem encodeShi_masked (shiftType : BitVec 2) (rn rd : RegIdx) (shamt : BitVec 5) :
    encodeShi shiftType rn rd shamt &&& 0x03E00060#32 =
      0b000000#6 ++ 0b10011#5 ++ 0#14 ++ shiftType ++ 0#5 := by
  refine BitVec.eq_of_getLsbD_eq fun i hi => ?_
  simp only [encodeShi, BitVec.getLsbD_and, BitVec.getLsbD_append]
  interval_cases i <;> simp

/-- A word of format LS under the load and store rows' mask keeps its class and its l_bit. -/
theorem encodeLs_masked (l : BitVec 1) (rn rd : RegIdx) (offset : BitVec 12) :
    encodeLs l rn rd offset &&& 0x0E100000#32 = 0b0000#4 ++ 0b010#3 ++ 0#4 ++ l ++ 0#20 := by
  refine BitVec.eq_of_getLsbD_eq fun i hi => ?_
  simp only [encodeLs, BitVec.getLsbD_and, BitVec.getLsbD_append]
  interval_cases i <;> simp

/-- A word of format BR under the branch rows' mask keeps its class. -/
theorem encodeBr_masked (brClass : BitVec 4) (offset : BitVec 26) :
    encodeBr brClass offset &&& 0x0F000000#32 = 0b0000#4 ++ brClass ++ 0#24 := by
  refine BitVec.eq_of_getLsbD_eq fun i hi => ?_
  simp only [encodeBr, BitVec.getLsbD_and, BitVec.getLsbD_append]
  interval_cases i <;> simp

/-- The encoding of the operation lies in its row's region. -/
def MatchesRow.Statement (i : Instr) : Prop := encode i &&& rowMask i = rowMatch i

theorem MatchesRow.mov (rd : RegIdx) (imm : BitVec 8) : MatchesRow.Statement (.mov rd imm) :=
  encodeDpi_masked ..
theorem MatchesRow.add (rd rn : RegIdx) (imm : BitVec 8) :
    MatchesRow.Statement (.add rd rn imm) := encodeDpi_masked ..
theorem MatchesRow.sub (rd rn : RegIdx) (imm : BitVec 8) :
    MatchesRow.Statement (.sub rd rn imm) := encodeDpi_masked ..
theorem MatchesRow.cmp (rn : RegIdx) (imm : BitVec 8) : MatchesRow.Statement (.cmp rn imm) :=
  encodeDpi_masked ..
theorem MatchesRow.and (rd rn : RegIdx) (imm : BitVec 8) :
    MatchesRow.Statement (.and rd rn imm) := encodeDpi_masked ..
theorem MatchesRow.or (rd rn : RegIdx) (imm : BitVec 8) :
    MatchesRow.Statement (.or rd rn imm) := encodeDpi_masked ..
theorem MatchesRow.xor (rd rn : RegIdx) (imm : BitVec 8) :
    MatchesRow.Statement (.xor rd rn imm) := encodeDpi_masked ..
theorem MatchesRow.mul (rd rn : RegIdx) (imm : BitVec 8) :
    MatchesRow.Statement (.mul rd rn imm) := encodeDpi_masked ..
theorem MatchesRow.mvn (rd : RegIdx) (imm : BitVec 8) : MatchesRow.Statement (.mvn rd imm) :=
  encodeDpi_masked ..
theorem MatchesRow.tst (rn : RegIdx) (imm : BitVec 8) : MatchesRow.Statement (.tst rn imm) :=
  encodeDpi_masked ..
theorem MatchesRow.lsl (rd rn : RegIdx) (shamt : BitVec 5) :
    MatchesRow.Statement (.lsl rd rn shamt) := encodeShi_masked ..
theorem MatchesRow.lsr (rd rn : RegIdx) (shamt : BitVec 5) :
    MatchesRow.Statement (.lsr rd rn shamt) := encodeShi_masked ..
theorem MatchesRow.ldr (rd rn : RegIdx) (offset : BitVec 12) :
    MatchesRow.Statement (.ldr rd rn offset) := encodeLs_masked ..
theorem MatchesRow.str (rd rn : RegIdx) (offset : BitVec 12) :
    MatchesRow.Statement (.str rd rn offset) := encodeLs_masked ..
theorem MatchesRow.b (offset : BitVec 26) : MatchesRow.Statement (.b offset) :=
  encodeBr_masked ..
theorem MatchesRow.bl (offset : BitVec 26) : MatchesRow.Statement (.bl offset) :=
  encodeBr_masked ..
theorem MatchesRow.unknown : MatchesRow.Statement .unknown := rfl

end Sys2Proof.Laws
end

