-- ==== Sys2Proof/Tests/Slice0.lean ====
section
/-! SUPPORT. Tests: ill-formed operations are refused, words written out from the spec's encodings
decode as they should, single steps on the vectors of 95_test_vectors.md, and for every obligation
with hypotheses a witness that meets them all. Expected values are the spec's, never the model's. -/

open Sys2Proof Sys2Proof.Machine

namespace Sys2Proof.Tests

/-! ### WellFormed (30_encoding.md R71) -/

theorem test_wellFormed_refuses_b : ¬ (Instr.b 2#26).WellFormed := by decide
theorem test_wellFormed_refuses_bl : ¬ (Instr.bl 1#26).WellFormed := by decide
theorem test_wellFormed_admits_branches :
    (Instr.b 0x3FFFFFC#26).WellFormed ∧ (Instr.bl 0#26).WellFormed := by decide

/-! ### Decoding: words of V-D1 to V-D5, bit by bit where a format is shown first -/

theorem test_decode_mov :
    decode 0b1110_00_1_1101_0_0000_0001_0000_00000100#32 = .mov 1#4 4#8 := by decide
theorem test_decode_add :
    decode 0b1110_00_1_0100_0_1111_1110_0000_00001000#32 = .add 14#4 15#4 8#8 := by decide
theorem test_decode_sub :
    decode 0b1110_00_1_0010_0_0000_0011_0000_00000001#32 = .sub 3#4 0#4 1#8 := by decide
theorem test_decode_cmp :
    decode 0b1110_00_1_1010_0_0001_1111_0000_00000100#32 = .cmp 1#4 4#8 := by decide
theorem test_decode_and :
    decode 0b1110_00_1_0000_0_0001_0010_0000_00001111#32 = .and 2#4 1#4 15#8 := by decide
theorem test_decode_or :
    decode 0b1110_00_1_1100_0_0001_0010_0000_11110000#32 = .or 2#4 1#4 0xF0#8 := by decide
theorem test_decode_xor :
    decode 0b1110_00_1_0001_0_0001_0010_0000_11111111#32 = .xor 2#4 1#4 0xFF#8 := by decide
theorem test_decode_mul :
    decode 0b1110_00_1_0110_0_0001_0010_0000_00001010#32 = .mul 2#4 1#4 10#8 := by decide
theorem test_decode_mvn : decode 0xFFFFFFFF#32 = .mvn 15#4 255#8 := by decide
theorem test_decode_tst :
    decode 0b1110_00_1_1000_0_0001_0000_0000_00000001#32 = .tst 1#4 1#8 := by decide
theorem test_decode_lsl :
    decode 0b1110_00_1_0011_0_0001_0010_11111_00_11111#32 = .lsl 2#4 1#4 31#5 := by decide
theorem test_decode_lsr :
    decode 0b1110_00_1_0011_0_0001_0010_00100_01_00000#32 = .lsr 2#4 1#4 4#5 := by decide
theorem test_decode_ldr :
    decode 0b1110_01_0_1100_1_0001_0011_000000000100#32 = .ldr 3#4 1#4 4#12 ∧
      decode 0xE41FFFFF#32 = .ldr 15#4 15#4 4095#12 := by decide
theorem test_decode_str :
    decode 0b1110_01_0_1100_0_0001_0010_000000000100#32 = .str 2#4 1#4 4#12 := by decide

/-- V-D1: the three reasons a word is UNKNOWN (30_encoding.md R82). -/
theorem test_decode_unknown :
    decode 0xE2600040#32 = .unknown ∧ decode 0xE2A00000#32 = .unknown ∧
      decode 0xE0812003#32 = .unknown ∧ decode 0#32 = .unknown := by decide

/-- V-D3: unexamined bits. -/
theorem test_decode_unexamined :
    decode 0x03A01004#32 = .mov 1#4 4#8 ∧ decode 0xE7A01004#32 = .mov 1#4 4#8 ∧
      decode 0xE3B01F04#32 = .mov 1#4 4#8 ∧ decode 0xE4713004#32 = .ldr 3#4 1#4 4#12 := by decide

/-- V-D5: the words of the branch patterns do not branch (90_conflicts.md C1). -/
theorem test_decode_branch_patterns :
    decode 0xEA000002#32 = .and 0#4 0#4 2#8 ∧ decode 0xEB000002#32 = .tst 0#4 2#8 ∧
      decode 0xEBA01234#32 = .mov 1#4 52#8 ∧ decode 0xEAFFFFFE#32 = .unknown := by decide

/-- The encodings of 30_encoding.md R88 and of format BR (R78). -/
theorem test_encode :
    encode (.mov 1#4 4#8) = 0xE3A01004#32 ∧ encode (.add 2#4 1#4 3#8) = 0xE2812003#32 ∧
      encode (.str 2#4 1#4 4#12) = 0xE5812004#32 ∧ encode (.ldr 3#4 1#4 4#12) = 0xE5913004#32 ∧
      encode (.lsr 2#4 1#4 4#5) = 0xE2612220#32 ∧ encode (.b 8#26) = 0xEA000002#32 ∧
      encode (.bl 8#26) = 0xEB000002#32 := by decide

/-- 20_memory.md R56: the bytes of 0xE3A01004 in the image are 04 10 A0 E3; three bytes are no
instruction. -/
theorem test_decode_bytes :
    decodeBytes [0x04#8, 0x10#8, 0xA0#8, 0xE3#8, 0xFF#8] = .ok (.mov 1#4 4#8, [0xFF#8]) ∧
      decodeBytes [0x04#8, 0x10#8, 0xA0#8] = .error .truncated ∧
      decodeTableWord 32 0xE5913004 = some (.ldr 3#4 1#4 4#12) := ⟨rfl, rfl, rfl⟩

/-! ### Helpers: small states and what is looked at after one step -/

/-- The state a step or an operation answers; the state given, when it answers none. -/
def after (s : State) : Host.Outcome State Fault Refusal → State
  | .next t => t
  | .fault _ => s
  | .refused _ => s

/-- A running block at address 0x40 with an image of 0x100 bytes, N = 1 and the given x[1], x[2]. -/
def start (x1 x2 : Word) : State :=
  setReg 1#4 x1 (setReg 2#4 x2
    { State.reset with
      flags := { n := true, z := false, c := false, v := false }
      fpc := 0x40#32
      run := .running
      imageLen := 0x100 })

/-- A state with a word stored at an address. -/
def storing (a : Nat) (w : Word) (s : State) : State := setMem (s.mem.writeWord a w) s

/-- x[2], Z and N after an operation on x[1]. -/
def result (i : Instr) (x1 : Word) : Word × Bool × Bool :=
  let t := after State.reset (exec i (start x1 0x55555555#32))
  (getReg 2#4 t, t.flags.z, t.flags.n)

/-! ### One operation each (V-A1 to V-A5, section 2.5) -/

theorem test_mov_zero : result (.mov 2#4 0#8) 0#32 = (0#32, true, false) := by decide
theorem test_mov_no_sign : result (.mov 2#4 128#8) 0#32 = (0x80#32, false, false) := by decide
theorem test_add_wraps : result (.add 2#4 1#4 1#8) 0xFFFFFFFF#32 = (0#32, true, false) := by decide
theorem test_add_sign :
    result (.add 2#4 1#4 1#8) 0x7FFFFFFF#32 = (0x80000000#32, false, true) := by decide
theorem test_sub_wraps :
    result (.sub 2#4 1#4 255#8) 3#32 = (0xFFFFFF04#32, false, true) := by decide
theorem test_sub_zero : result (.sub 2#4 1#4 5#8) 5#32 = (0#32, true, false) := by decide
theorem test_cmp_equal : result (.cmp 1#4 4#8) 4#32 = (0x55555555#32, true, false) := by decide
theorem test_cmp_below : result (.cmp 1#4 4#8) 3#32 = (0x55555555#32, false, true) := by decide
theorem test_and_low_byte :
    result (.and 2#4 1#4 15#8) 0x12345678#32 = (8#32, false, false) := by decide
theorem test_or_keeps_top :
    result (.or 2#4 1#4 1#8) 0x80000000#32 = (0x80000001#32, false, true) := by decide
theorem test_xor_low_byte :
    result (.xor 2#4 1#4 255#8) 0xFFFFFFFF#32 = (0xFFFFFF00#32, false, true) := by decide
theorem test_mul_low_word :
    result (.mul 2#4 1#4 255#8) 0xFFFFFFFF#32 = (0xFFFFFF01#32, false, true) := by decide
theorem test_mul_lost_bits :
    result (.mul 2#4 1#4 2#8) 0x80000000#32 = (0#32, true, false) := by decide
theorem test_mvn : result (.mvn 2#4 255#8) 0#32 = (0xFFFFFF00#32, false, true) := by decide
theorem test_tst_no_common_bit :
    result (.tst 1#4 255#8) 0xFFFFFF00#32 = (0x55555555#32, true, false) := by decide
theorem test_tst_common_bit :
    result (.tst 1#4 128#8) 0xFFFFFFFF#32 = (0x55555555#32, false, false) := by decide
theorem test_lsl_last : result (.lsl 2#4 1#4 31#5) 3#32 = (0x80000000#32, false, true) := by decide
theorem test_lsl_lost_bit :
    result (.lsl 2#4 1#4 1#5) 0x80000000#32 = (0#32, true, false) := by decide
theorem test_lsr_by_zero :
    result (.lsr 2#4 1#4 0#5) 0x80000000#32 = (0x80000000#32, false, true) := by decide
theorem test_lsr_logical :
    result (.lsr 2#4 1#4 4#5) 0xFFFFFFFF#32 = (0x0FFFFFFF#32, false, false) := by decide

/-! ### Loads, stores and branches (section 2.6, section 2.7) -/

/-- V-L4: an unaligned load, flags kept. -/
theorem test_ldr_unaligned :
    let t := after State.reset (exec (.ldr 3#4 1#4 1#12)
      (storing 0x200 0x44332211#32 (storing 0x204 0x88776655#32 (start 0x200#32 0#32))))
    getReg 3#4 t = 0x55443322#32 ∧ t.flags.n = true := by decide

/-- V-L3: an unaligned store. -/
theorem test_str_unaligned :
    (after State.reset (exec (.str 2#4 1#4 2#12) (start 0x201#32 0xDEADBEEF#32))).mem =
      [(0x203, 0xEF#8), (0x204, 0xBE#8), (0x205, 0xAD#8), (0x206, 0xDE#8)] := by decide

/-- V-L11 and V-L13: the fault is taken; x[2], fpc kept; an address of 2^32 is no address 0. -/
theorem test_ldr_faults :
    let t := after State.reset (step (storing 0x40 0xE5912FFD#32 (start 0#32 9#32)))
    t.run = .faulted (.memOutOfBounds 4093) ∧ getReg 2#4 t = 9#32 ∧ getReg 15#4 t = 0x40#32 ∧
      t.fpc = 0x40#32 ∧
      (after State.reset (step (storing 0x40 0xE5912004#32 (start 0xFFFFFFFC#32 9#32)))).run =
        .faulted (.memOutOfBounds 0x100000000) := by decide

/-- V-L12: no byte is written, not even the one in bounds. -/
theorem test_str_faults :
    let s := storing 0x40 0xE5812FFF#32 (start 0#32 0xFFFFFFFF#32)
    (after State.reset (step s)).run = .faulted (.memOutOfBounds 4095) ∧
      (after State.reset (step s)).mem = s.mem := by decide

/-- V-B1 and V-B4. -/
theorem test_b :
    (after State.reset (runOperation (.b 8#26) (setFpc 0x10#32 (start 0#32 0#32)))).fpc = 0x18#32 ∧
      (after State.reset (runOperation (.b 0#26) (setFpc 0#32 (start 0#32 0#32)))).fpc = 0#32 := by
  decide

/-- V-B8. -/
theorem test_bl :
    let t := after State.reset (runOperation (.bl 0x100#26) (setFpc 0#32 (start 0#32 0#32)))
    t.fpc = 0x100#32 ∧ getReg 15#4 t = 0xFC#32 ∧ getReg 14#4 t = 4#32 := by decide

/-! ### The step (V-A6, V-U1, V-U3, V-U8, programs P8 and P9) and reset -/

/-- V-A6: x[15] reads as the instruction's own address, and writing it jumps 4 past the value. -/
theorem test_step_pc_operand :
    let t := after State.reset (step (storing 0x40 0xE28FF008#32 (start 0#32 0#32)))
    getReg 15#4 t = 0x48#32 ∧ t.fpc = 0x4C#32 ∧ t.run = .running := by decide

/-- V-U3: UNKNOWN as the last word of the image. -/
theorem test_step_unknown_last :
    let t := after State.reset (step { start 0#32 0#32 with imageLen := 0x44 })
    t.run = .haltedUnknown ∧ t.fpc = 0x44#32 ∧ getReg 15#4 t = 0x40#32 := by decide

/-- P8: the advance wraps (92_eei_decisions.md D3). P9: a jump past the image halts normally. -/
theorem test_step_wraps :
    (after State.reset (step (resetWith 4096 [0x03#8, 0xF0#8, 0xE0#8, 0xE3#8]))).run = .running ∧
      (after State.reset (step (resetWith 4096 [0x04#8, 0xF0#8, 0xE0#8, 0xE3#8]))).fpc =
        0xFFFFFFFF#32 ∧
      (after State.reset (step (resetWith 4096 [0x04#8, 0xF0#8, 0xE0#8, 0xE3#8]))).run =
        .haltedNormal := by decide

/-- V-U8: an image of 6 bytes; its second word is 0x00002001. -/
theorem test_reset_partial_word :
    memRead 4 (resetWith 4096 [0x04#8, 0x10#8, 0xA0#8, 0xE3#8, 0x01#8, 0x20#8]) = .ok 0x2001#32 := rfl

/-- The words the host places run as the first instruction. -/
theorem test_withFetchWord :
    (after State.reset (step (State.reset.withFetchWord 32 0xE3A01004))).regs[1] = 4#32 := by decide

/-! ### Witnesses: every obligation's hypotheses are met by a concrete state and operands -/

/-- A running block whose next instruction is the given word. -/
def running (w : Word) : State := storing 0x40 w (start 0x80#32 7#32)

/-- The state after the step of a running block. -/
def stepped (s : State) : State := after s (step s)

theorem test_witness_StepRunsDecodedInstruction_next :
    (running 0xE2812003#32).run = .running ∧
      memRead (running 0xE2812003#32).fpc.toNat (running 0xE2812003#32) = .ok 0xE2812003#32 ∧
      decode 0xE2812003#32 = .add 2#4 1#4 3#8 := ⟨rfl, rfl, rfl⟩

theorem test_witness_StepRunsDecodedInstruction_fault :
    (running 0xE5912F80#32).run = .running ∧
      memRead (running 0xE5912F80#32).fpc.toNat (running 0xE5912F80#32) = .ok 0xE5912F80#32 ∧
      exec (decode 0xE5912F80#32) (setReg 15#4 0x40#32 (running 0xE5912F80#32)) =
        .fault (.memOutOfBounds 4096) := ⟨rfl, rfl, rfl⟩

theorem test_witness_FetchOutOfBoundsFaults :
    (setFpc 4093#32 (start 0#32 0#32)).run = .running ∧
      (setFpc 4093#32 (start 0#32 0#32)).memCapacity <
        (setFpc 4093#32 (start 0#32 0#32)).fpc.toNat + 4 := by decide

theorem test_witness_TerminalStatesAbsorb :
    State.reset.run ≠ .running ∧ (setRun .haltedUnknown (start 0#32 0#32)).run ≠ .running ∧
      (setRun (.faulted .imageTooLarge) (start 0#32 0#32)).run ≠ .running := by decide

/-- The block with an image that ends right after, or one byte past, the instruction at 0x40. -/
def ending (w : Word) (len : Nat) : State := { running w with imageLen := len }

theorem test_witness_HaltTestAfterStep_unknown :
    (ending 0#32 0x44).run = .running ∧
      memRead (ending 0#32 0x44).fpc.toNat (ending 0#32 0x44) = .ok 0#32 ∧
      exec (decode 0#32) (setReg 15#4 0x40#32 (ending 0#32 0x44)) =
        .next (setReg 15#4 0x40#32 (ending 0#32 0x44)) ∧ decode 0#32 = .unknown :=
  ⟨rfl, rfl, rfl, rfl⟩

theorem test_witness_HaltTestAfterStep_normal :
    (ending 0xE3A01004#32 0x44).run = .running ∧
      memRead (ending 0xE3A01004#32 0x44).fpc.toNat (ending 0xE3A01004#32 0x44) = .ok 0xE3A01004#32 ∧
      (∃ u, exec (decode 0xE3A01004#32) (setReg 15#4 0x40#32 (ending 0xE3A01004#32 0x44)) = .next u) ∧
      decode 0xE3A01004#32 ≠ .unknown ∧
      (ending 0xE3A01004#32 0x44).imageLen ≤ (stepped (ending 0xE3A01004#32 0x44)).fpc.toNat :=
  ⟨rfl, rfl, ⟨_, rfl⟩, by decide, by decide⟩

theorem test_witness_HaltTestAfterStep_running :
    (ending 0xE3A01004#32 0x45).run = .running ∧
      memRead (ending 0xE3A01004#32 0x45).fpc.toNat (ending 0xE3A01004#32 0x45) = .ok 0xE3A01004#32 ∧
      (∃ u, exec (decode 0xE3A01004#32) (setReg 15#4 0x40#32 (ending 0xE3A01004#32 0x45)) = .next u) ∧
      decode 0xE3A01004#32 ≠ .unknown ∧
      (stepped (ending 0xE3A01004#32 0x45)).fpc.toNat < (ending 0xE3A01004#32 0x45).imageLen :=
  ⟨rfl, rfl, ⟨_, rfl⟩, by decide, by decide⟩

theorem test_witness_NextFetchAddress :
    (running 0xE3A01004#32).run = .running ∧
      memRead (running 0xE3A01004#32).fpc.toNat (running 0xE3A01004#32) = .ok 0xE3A01004#32 ∧
      step (running 0xE3A01004#32) = .next (stepped (running 0xE3A01004#32)) ∧
      ¬ (stepped (running 0xE3A01004#32)).Faulted ∧
      15#4 ∉ regsWritten (decode 0xE3A01004#32) :=
  ⟨rfl, rfl, rfl, fun ⟨_, h⟩ => by revert h; exact fun h => RunState.noConfusion h, by decide⟩

theorem test_witness_MvnWritesComplement : 3 < (4#8 : BitVec 8).toNat ∧
    ({ start 0#32 0#32 with imageLen := 0xFFFFFF04 } : State).imageLen ≤ 0xFFFFFF04 := by decide

theorem test_witness_LsrWritesRightShift :
    (after State.reset (exec (.lsr 2#4 1#4 0#5) (start 0x80000000#32 0#32))).flags.n = true := by
  decide

theorem test_witness_LdrLoadsWord :
    4092 = effectiveAddress 1#4 12#12 (start 4080#32 0#32) ∧
      4092 + 4 ≤ (start 4080#32 0#32).memCapacity ∧
      4093 = effectiveAddress 1#4 13#12 (start 4080#32 0#32) ∧
      (start 4080#32 0#32).memCapacity < 4093 + 4 := by decide

theorem test_witness_StrStoresWord :
    (running 7#32).mem.wf = true ∧ 4092 = effectiveAddress 1#4 3964#12 (running 7#32) ∧
      4092 + 4 ≤ (running 7#32).memCapacity ∧ 4093 = effectiveAddress 1#4 3965#12 (running 7#32) ∧
      (running 7#32).memCapacity < 4093 + 4 := by decide

theorem test_witness_LoadStoreReach :
    (Instr.ldr 2#4 1#4 4#12 = .ldr 2#4 1#4 4#12 ∨ Instr.ldr 2#4 1#4 4#12 = .str 2#4 1#4 4#12) ∧
      (Instr.str 2#4 1#4 4#12 = .ldr 2#4 1#4 4#12 ∨ Instr.str 2#4 1#4 4#12 = .str 2#4 1#4 4#12) ∧
      (start 4088#32 0#32).memCapacity = 4096 ∧
      effectiveAddress 1#4 4#12 (start 4088#32 0#32) ≤ 4092 ∧
      ¬ effectiveAddress 1#4 4#12 (start 4089#32 0#32) ≤ 4092 := by decide

theorem test_witness_AddressSumNeverWraps :
    ({ start 0xFFFFFFFF#32 0#32 with memCapacity := 2 ^ 32 } : State).memCapacity ≤ 2 ^ 32 ∧
      2 ^ 32 ≤ (getReg 1#4 { start 0xFFFFFFFF#32 0#32 with memCapacity := 2 ^ 32 }).toNat +
        (1#12 : BitVec 12).toNat := by decide

theorem test_witness_BranchOffsetLaw :
    (Instr.b 0#26).WellFormed ∧ (Instr.b 0x3FFFFFC#26).WellFormed := by decide

theorem test_witness_BranchLinkLaw :
    (Instr.bl 0#26).WellFormed ∧ (Instr.bl 0x3FFFFFC#26).WellFormed := by decide

theorem test_witness_UnknownHaltsRun :
    (running 0xE2612240#32).run = .running ∧
      memRead (running 0xE2612240#32).fpc.toNat (running 0xE2612240#32) = .ok 0xE2612240#32 ∧
      decode 0xE2612240#32 = .unknown := ⟨rfl, rfl, rfl⟩

/-- One operation of each constructor. -/
def oneOfEach : List Instr :=
  [.mov 1#4 4#8, .add 2#4 1#4 3#8, .sub 2#4 1#4 3#8, .cmp 1#4 4#8, .and 2#4 1#4 3#8, .or 2#4 1#4 3#8,
    .xor 2#4 1#4 3#8, .mul 2#4 1#4 3#8, .mvn 1#4 4#8, .tst 1#4 4#8, .lsl 2#4 1#4 3#5, .lsr 2#4 1#4 3#5,
    .ldr 2#4 1#4 3#12, .str 2#4 1#4 3#12, .b 8#26, .bl 8#26, .unknown]

/-- Whether an outcome is a next state. -/
def isNext : Host.Outcome State Fault Refusal → Bool
  | .next _ => true
  | .fault _ => false
  | .refused _ => false

/-- Every constructor completes on the state `start`: the hypothesis of FlagSettingOperations and
OnlyListedRegistersWritten, and the next clause of UnitsIgnoreFetchState and OnlyListedRegistersRead
with the register 5, which none of them reads. -/
theorem test_witness_exec_answers_next :
    (oneOfEach.all fun i => isNext (exec i (start 0x80#32 7#32)) && !(regsRead i).contains 5#4) = true := by
  decide

theorem test_witness_FlagSettingOperations : (0xE2812003#32 : Word).getLsbD 25 = true := by decide

theorem test_witness_OnlyListedRegistersRead_fault :
    5#4 ∉ regsRead (.ldr 2#4 1#4 1#12) ∧
      exec (.ldr 2#4 1#4 1#12) (start 0xFFFFFFFF#32 0#32) = .fault (.memOutOfBounds 0x100000000) :=
  ⟨by decide, rfl⟩

theorem test_witness_OnlyLoadAndStoreFault :
    exec (.str 2#4 1#4 13#12) (start 4080#32 0#32) = .fault (.memOutOfBounds 4093) := rfl

/-- A step of each kind: an operation, a fault, a terminal state. Hypothesis of
CarryAndOverflowNeverWritten, NoStepReadsFlags, ParametersNeverChange and ResetLoadsImage. -/
theorem test_witness_step_answers_next :
    step (running 0xE2812003#32) = .next (stepped (running 0xE2812003#32)) ∧
      step (running 0xE5912F80#32) = .next (stepped (running 0xE5912F80#32)) ∧
      step State.reset = .next State.reset := ⟨rfl, rfl, rfl⟩

theorem test_witness_OnlyStoreChangesMemory :
    (running 0xE5812004#32).mem.wf = true ∧
      step (running 0xE5812004#32) = .next (stepped (running 0xE5812004#32)) ∧
      (stepped (running 0xE5812004#32)).mem.readByte 0x84 ≠ (running 0xE5812004#32).mem.readByte 0x84 :=
  ⟨by decide, rfl, by decide⟩

/-- STR R1, R15, 4 at 0x40 stores over the word at 0x44, the next to be fetched. -/
theorem test_witness_StoreIsSeenByNextFetch :
    (running 0xE58F1004#32).mem.wf = true ∧ (running 0xE58F1004#32).run = .running ∧
      memRead (running 0xE58F1004#32).fpc.toNat (running 0xE58F1004#32) = .ok 0xE58F1004#32 ∧
      decode 0xE58F1004#32 = .str 1#4 15#4 4#12 ∧
      step (running 0xE58F1004#32) = .next (stepped (running 0xE58F1004#32)) ∧
      (stepped (running 0xE58F1004#32)).run = .running ∧
      (stepped (running 0xE58F1004#32)).fpc.toNat =
        effectiveAddress 15#4 4#12 (setReg 15#4 0x40#32 (running 0xE58F1004#32)) :=
  ⟨by decide, rfl, rfl, rfl, rfl, rfl, by decide⟩

theorem test_witness_RegisterWriteIsMasked :
    (0 : Int) ≤ 0 ∧ (0 : Int) < 2 ^ 32 ∧ (0 : Int) ≤ 0xFFFFFFFF ∧ (0xFFFFFFFF : Int) < 2 ^ 32 := by
  decide

theorem test_witness_RegisterIndexFault : 15 < 16 ∧ 16 ≤ 16 := by decide

theorem test_witness_MemReadIsLittleEndian :
    (start 0#32 0#32).memCapacity < 4093 + 4 ∧ 4092 + 4 ≤ (start 0#32 0#32).memCapacity := by decide

theorem test_witness_MemWriteStoresFourBytes :
    (running 7#32).mem.wf = true ∧ (running 7#32).memCapacity < 4093 + 4 ∧
      4092 + 4 ≤ (running 7#32).memCapacity := by decide

/-- V-M3: a read two bytes below the word written sees two bytes of each. -/
theorem test_witness_MemoryRoundTrip :
    (running 0x11223344#32).mem.wf = true ∧ 0x42 + 4 ≤ (running 0x11223344#32).memCapacity ∧
      0x40 + 4 ≤ (running 0x11223344#32).memCapacity ∧ (0x42 ≤ 0x40 + 2 ∧ 0x40 + 2 < 0x42 + 4) ∧
      ¬ (0x42 ≤ 0x40 + 1 ∧ 0x40 + 1 < 0x42 + 4) := by decide

/-- The same bytes written in two orders. -/
theorem test_witness_CanonicalMemoriesEqual :
    let m := Memory.writeByte (Memory.writeByte [] 4 1#8) 2 3#8
    let m' := Memory.writeByte (Memory.writeByte [] 2 3#8) 4 1#8
    m.wf = true ∧ m'.wf = true ∧ ∀ a, m.readByte a = m'.readByte a := ⟨rfl, rfl, fun _ => rfl⟩

/-- One pair of different words for each format: DPI with both registers, MOV, CMP, SHI, LS, UNKNOWN. -/
theorem test_witness_UnexaminedBitsIgnored :
    0xE2812003#32 &&& examinedBits 0xE2812003#32 = 0x0E912F03#32 &&& examinedBits 0xE2812003#32 ∧
      0xE3A01004#32 &&& examinedBits 0xE3A01004#32 = 0x03AF1004#32 &&& examinedBits 0xE3A01004#32 ∧
      0xE3410004#32 &&& examinedBits 0xE3410004#32 = 0xE341F004#32 &&& examinedBits 0xE3410004#32 ∧
      0xE2612200#32 &&& examinedBits 0xE2612200#32 = 0xE261221F#32 &&& examinedBits 0xE2612200#32 ∧
      0xE5913004#32 &&& examinedBits 0xE5913004#32 = 0xE4713004#32 &&& examinedBits 0xE5913004#32 ∧
      0xE8000000#32 &&& examinedBits 0xE8000000#32 = 0x09FFFFFF#32 &&& examinedBits 0xE8000000#32 := by
  decide

theorem test_witness_DecodeEncodeRoundTrip :
    (∀ offset, Instr.ldr 15#4 15#4 4095#12 ≠ .b offset) ∧
      ∀ offset, Instr.ldr 15#4 15#4 4095#12 ≠ .bl offset :=
  ⟨fun _ h => Instr.noConfusion h, fun _ h => Instr.noConfusion h⟩

/-- An image of one byte and one that fills the memory. -/
theorem test_witness_ResetClearsState :
    0 < [1#8].length ∧ [1#8].length ≤ 4096 ∧ 0 < [1#8, 2#8].length ∧ [1#8, 2#8].length ≤ 2 := by
  decide

theorem test_witness_ResetLoadsImage :
    [1#8, 2#8].length ≤ 2 ∧ 1 < [1#8, 2#8].length ∧ [1#8, 2#8].length ≤ 2 := by decide

theorem test_witness_ResetWithoutStep : 1 < [1#8, 2#8].length ∧ 0 < [0#8].length := by decide

theorem test_witness_PlacedWordIsFetched :
    State.reset.mem.wf = true ∧ (running 7#32).mem.wf = true := by decide

theorem test_witness_ResetWithImageMeetsInvariant :
    (0 : Nat) ≤ 2 ^ 32 ∧ (2 ^ 32 : Nat) ≤ 2 ^ 32 := by decide

/-- A running block that meets the invariant and steps. -/
theorem test_witness_StepKeepsInvariant :
    (running 0xE2812003#32).Inv ∧
      step (running 0xE2812003#32) = .next (stepped (running 0xE2812003#32)) :=
  ⟨{ memWf := by decide
     memBelow := by decide
     capacityLe := by decide
     fpcInImage := fun _ => by decide
     imageFits := .inl (by decide)
     carryClear := rfl
     overflowClear := rfl
     notBothNZ := by decide
     faultOutside := fun _ h => RunState.noConfusion h
     noIndexFault := fun _ h => RunState.noConfusion h }, rfl⟩

end Sys2Proof.Tests
end

section
/-! PROOFS. The statements of 10_state.md: the masked register write (R21) and the operations that
write Z and N (R30). First the layer they share: fields under a flipped bit, the flags a result
leaves, and what each operation answers in terms of `writeResult` and `updateFlags`. -/

namespace Sys2Proof

/-! ### Fields of a word with flipped bits -/

/-- Flipping bits outside a field keeps the field. -/
theorem extractLsb'_xor_of_disjoint {mask : Word} {lo n : Nat} (hm : mask.extractLsb' lo n = 0#n)
    (w : Word) : (w ^^^ mask).extractLsb' lo n = w.extractLsb' lo n := by
  rw [BitVec.extractLsb'_xor, hm, BitVec.xor_zero]

theorem iBit_eq_one_iff (w : Word) : iBit w = 1#1 ↔ w.getLsbD 25 = true := by
  simp [iBit, BitVec.eq_of_getLsbD_eq_iff]

theorem decode_of_iBit {w : Word} (h : iBit w = 1#1) : decode w = decodeDataProcessing w :=
  if_pos h

/-- Check 1 depends on its six fields alone (30_encoding.md R74 to R76). -/
theorem decodeDataProcessing_congr {w w' : Word} (hopcode : opcodeOf w' = opcodeOf w)
    (hrn : rnOf w' = rnOf w) (hrd : rdOf w' = rdOf w) (himm : immOf w' = immOf w)
    (hshamt : shamtOf w' = shamtOf w) (htype : shiftTypeOf w' = shiftTypeOf w) :
    decodeDataProcessing w' = decodeDataProcessing w := by
  simp only [decodeDataProcessing, decodeShift, hopcode, hrn, hrd, himm, hshamt, htype]

/-- Bit 20 lies in no field of check 1, so it suppresses nothing (10_state.md R30). -/
theorem decode_flip_bit20 {w : Word} (h : w.getLsbD 25 = true) :
    decode (w ^^^ 0x00100000#32) = decode w := by
  have hi : iBit w = 1#1 := (iBit_eq_one_iff w).2 h
  have hi' : iBit (w ^^^ 0x00100000#32) = 1#1 := (extractLsb'_xor_of_disjoint rfl w).trans hi
  rw [decode_of_iBit hi, decode_of_iBit hi']
  exact decodeDataProcessing_congr
    (extractLsb'_xor_of_disjoint rfl w) (extractLsb'_xor_of_disjoint rfl w)
    (extractLsb'_xor_of_disjoint rfl w) (extractLsb'_xor_of_disjoint rfl w)
    (extractLsb'_xor_of_disjoint rfl w) (extractLsb'_xor_of_disjoint rfl w)

namespace Machine

/-! ### Register writes -/

@[simp] theorem getReg_writeReg_same (i : RegIdx) (v : Int) (s : State) :
    getReg i (writeReg i v s) = reduce v :=
  getReg_setReg_same i (reduce v) s

@[simp] theorem writeReg_flags (i : RegIdx) (v : Int) (s : State) :
    (writeReg i v s).flags = s.flags := rfl

theorem regsKeptExcept_writeReg (i : RegIdx) (v : Int) (s : State) :
    RegsKeptExcept [i] s (writeReg i v s) :=
  fun _ hj => getReg_setReg_ne (List.ne_of_not_mem_cons hj) (reduce v) s

/-! ### The flags of a result -/

/-- Bit 31 as the unsigned comparison. -/
theorem getLsbD_31_iff (r : Word) : r.getLsbD 31 = true ↔ 2 ^ 31 ≤ r.toNat := by
  rw [← BitVec.msb_eq_getLsbD_last, BitVec.msb_eq_decide, decide_eq_true_iff]

/-- The flags of `UpdateFlags(r)` are those of r as numbers (41_data_processing.md R120). -/
theorem flagsFrom_of_flags_eq {r : Word} {s t : State} (h : t.flags = flagsAfter r s.flags) :
    FlagsFrom r s t := by
  unfold FlagsFrom
  rw [h]
  refine ⟨?_, getLsbD_31_iff r, rfl, rfl⟩
  rw [flagsAfter_z, beq_iff_eq, ← BitVec.toNat_inj]
  rfl

theorem flagsFrom_updateFlags (r : Word) (s : State) : FlagsFrom r s (updateFlags r s) :=
  flagsFrom_of_flags_eq (updateFlags_flags r s)

@[simp] theorem getReg_writeResult_same (rd : RegIdx) (r : Word) (s : State) :
    getReg rd (writeResult rd r s) = r :=
  getReg_setReg_same rd r s

theorem flagsFrom_writeResult (rd : RegIdx) (r : Word) (s : State) :
    FlagsFrom (getReg rd (writeResult rd r s)) s (writeResult rd r s) := by
  rw [getReg_writeResult_same]
  exact flagsFrom_of_flags_eq (writeResult_flags rd r s)

/-! ### What each operation answers (40_fetch_and_step.md R103) -/

section Exec
variable (rd rn : RegIdx) (imm : BitVec 8) (shamt : BitVec 5) (s : State)

theorem exec_mov : exec (.mov rd imm) s = .next (writeResult rd (immWord imm) s) := rfl
theorem exec_add : exec (.add rd rn imm) s =
    .next (writeResult rd (reduce ((getReg rn s).toNat + (immWord imm).toNat)) s) := rfl
theorem exec_sub : exec (.sub rd rn imm) s =
    .next (writeResult rd (reduce ((getReg rn s).toNat - (immWord imm).toNat)) s) := rfl
theorem exec_cmp : exec (.cmp rn imm) s =
    .next (updateFlags (reduce ((getReg rn s).toNat - (immWord imm).toNat)) s) := rfl
theorem exec_and : exec (.and rd rn imm) s =
    .next (writeResult rd (getReg rn s &&& immWord imm) s) := rfl
theorem exec_or : exec (.or rd rn imm) s =
    .next (writeResult rd (getReg rn s ||| immWord imm) s) := rfl
theorem exec_xor : exec (.xor rd rn imm) s =
    .next (writeResult rd (getReg rn s ^^^ immWord imm) s) := rfl
theorem exec_mul : exec (.mul rd rn imm) s =
    .next (writeResult rd (reduce ((getReg rn s).toNat * (immWord imm).toNat)) s) := rfl
theorem exec_mvn : exec (.mvn rd imm) s =
    .next (writeResult rd (0xFFFFFFFF#32 ^^^ immWord imm) s) := rfl
theorem exec_tst : exec (.tst rn imm) s =
    .next (updateFlags (getReg rn s &&& immWord imm) s) := rfl
theorem exec_lsl : exec (.lsl rd rn shamt) s =
    .next (writeResult rd (reduce ((getReg rn s).toNat * 2 ^ shamt.toNat)) s) := rfl
theorem exec_lsr : exec (.lsr rd rn shamt) s =
    .next (writeResult rd (reduce ((getReg rn s).toNat / 2 ^ shamt.toNat)) s) := rfl
theorem exec_ldr (offset : BitVec 12) :
    exec (.ldr rd rn offset) s = execLdr rd rn offset s := rfl
theorem exec_str (offset : BitVec 12) :
    exec (.str rd rn offset) s = execStr rd rn offset s := rfl
theorem exec_b (offset : BitVec 26) :
    exec (.b offset) s = .next (writeReg Config.pcIndex (branchTarget offset s) s) := rfl
theorem exec_bl (offset : BitVec 26) : exec (.bl offset) s =
    .next (writeReg Config.pcIndex (branchTarget offset s)
      (writeReg Config.lrIndex (linkValue s) s)) := rfl
theorem exec_unknown : exec .unknown s = .next s := rfl
end Exec

/-! ### Flags after an operation -/

section FlagsAfterExec
variable {i : Instr} {s t : State}

/-- An operation that ends in a result leaves the flags of what its destination then holds. -/
theorem flagsFrom_of_exec_writeResult {rd : RegIdx} {r : Word}
    (hi : exec i s = .next (writeResult rd r s)) (h : exec i s = .next t) :
    FlagsFrom (getReg rd t) s t := by
  obtain rfl : writeResult rd r s = t := Host.Outcome.next.inj (hi.symm.trans h)
  exact flagsFrom_writeResult rd r s

/-- An operation that only sets the flags leaves those of the destination of an operation j that
writes the same result. -/
theorem flagsFrom_of_exec_updateFlags {j : Instr} {rd : RegIdx} {r : Word}
    (hi : exec i s = .next (updateFlags r s)) (hj : exec j s = .next (writeResult rd r s))
    (h : exec i s = .next t) : ∃ u, exec j s = .next u ∧ FlagsFrom (getReg rd u) s t := by
  obtain rfl : updateFlags r s = t := Host.Outcome.next.inj (hi.symm.trans h)
  refine ⟨writeResult rd r s, hj, ?_⟩
  rw [getReg_writeResult_same]
  exact flagsFrom_updateFlags r s

/-- An operation whose next state has the old flags keeps the flags. -/
theorem flags_eq_of_exec {u : State} (hi : exec i s = .next u) (hu : u.flags = s.flags)
    (h : exec i s = .next t) : t.flags = s.flags := by
  obtain rfl : u = t := Host.Outcome.next.inj (hi.symm.trans h)
  exact hu

theorem execLdr_flags {rd rn : RegIdx} {offset : BitVec 12} (h : execLdr rd rn offset s = .next t) :
    t.flags = s.flags := by
  rw [execLdr_eq] at h
  split at h
  · cases h
    exact setReg_flags s rd _
  · cases h

theorem execStr_flags {rd rn : RegIdx} {offset : BitVec 12} (h : execStr rd rn offset s = .next t) :
    t.flags = s.flags := by
  rw [execStr_eq] at h
  split at h
  · cases h
    exact setMem_flags s _
  · cases h

end FlagsAfterExec

/-! ### The obligations -/

/-- Settles O39: a read after a write gives the reduction, which is `v mod 2^32`. -/
theorem registerWriteIsMasked : Obligations.RegisterWriteIsMasked := by
  intro i v s
  have hmod : ((getReg i (writeReg i v s)).toNat : Int) = v % 2 ^ 32 := by
    rw [getReg_writeReg_same, toNat_reduce]
  exact ⟨hmod, fun h0 hlt => hmod.trans (Int.emod_eq_of_lt h0 hlt), regsKeptExcept_writeReg i v s⟩

/-- Settles O30: bit 20 is in no field of check 1, and by cases on the operation. The twelve
flag-setting ones end in `writeResult` or `updateFlags`; the other five leave the flags alone. -/
theorem flagSettingOperations : Obligations.FlagSettingOperations := by
  refine ⟨fun w => decode_flip_bit20, fun i s t h => ?_⟩
  cases i with
  | mov rd imm => exact flagsFrom_of_exec_writeResult (exec_mov rd imm s) h
  | add rd rn imm => exact flagsFrom_of_exec_writeResult (exec_add rd rn imm s) h
  | sub rd rn imm => exact flagsFrom_of_exec_writeResult (exec_sub rd rn imm s) h
  | cmp rn imm => exact flagsFrom_of_exec_updateFlags (exec_cmp rn imm s) (exec_sub 0#4 rn imm s) h
  | and rd rn imm => exact flagsFrom_of_exec_writeResult (exec_and rd rn imm s) h
  | or rd rn imm => exact flagsFrom_of_exec_writeResult (exec_or rd rn imm s) h
  | xor rd rn imm => exact flagsFrom_of_exec_writeResult (exec_xor rd rn imm s) h
  | mul rd rn imm => exact flagsFrom_of_exec_writeResult (exec_mul rd rn imm s) h
  | mvn rd imm => exact flagsFrom_of_exec_writeResult (exec_mvn rd imm s) h
  | tst rn imm => exact flagsFrom_of_exec_updateFlags (exec_tst rn imm s) (exec_and 0#4 rn imm s) h
  | lsl rd rn shamt => exact flagsFrom_of_exec_writeResult (exec_lsl rd rn shamt s) h
  | lsr rd rn shamt => exact flagsFrom_of_exec_writeResult (exec_lsr rd rn shamt s) h
  | ldr rd rn offset => exact execLdr_flags ((exec_ldr rd rn s offset).symm.trans h)
  | str rd rn offset => exact execStr_flags ((exec_str rd rn s offset).symm.trans h)
  | b offset => exact flags_eq_of_exec (exec_b s offset) (writeReg_flags ..) h
  | bl offset =>
    exact flags_eq_of_exec (exec_bl s offset) ((writeReg_flags ..).trans (writeReg_flags ..)) h
  | unknown => exact flags_eq_of_exec (exec_unknown s) rfl h

end Machine

end Sys2Proof
end

section
/-! PROOFS. The statements of 20_memory.md: MemRead (R52), MemWrite (R53) and the round trip with
overlap (R57). First the bytes of a word read and the effect of a store of a word, which the
statements about LDR and STR share. -/

namespace Sys2Proof.Machine

/-! ### The word read -/

/-- A word read is the little-endian sum of its four bytes (20_memory.md R52). -/
theorem Memory.toNat_readWord (m : Memory) (addr : Nat) :
    (m.readWord addr).toNat = (m.readByte addr).toNat + 2 ^ 8 * (m.readByte (addr + 1)).toNat +
      2 ^ 16 * (m.readByte (addr + 2)).toNat + 2 ^ 24 * (m.readByte (addr + 3)).toNat :=
  toNat_wordOfBytes _ _ _ _

theorem toNat_wordByte (v : Word) (k : Nat) :
    (wordByte v k).toNat = v.toNat / 2 ^ (8 * k) % 2 ^ 8 := by
  rw [wordByte, BitVec.extractLsb'_toNat, Nat.shiftRight_eq_div_pow]

/-- Byte k of a word read is the byte of memory k above its address. -/
theorem Memory.wordByte_readWord (m : Memory) (addr : Nat) {k : Nat} (hk : k < 4) :
    wordByte (m.readWord addr) k = m.readByte (addr + k) := by
  have h0 := (m.readByte addr).isLt
  have h1 := (m.readByte (addr + 1)).isLt
  have h2 := (m.readByte (addr + 2)).isLt
  have h3 := (m.readByte (addr + 3)).isLt
  apply BitVec.eq_of_toNat_eq
  rw [toNat_wordByte, Memory.toNat_readWord]
  interval_cases k
  · rw [Nat.add_zero addr]; omega
  all_goals omega

/-! ### The word stored -/

theorem Memory.readByte_writeWord_add {m : Memory} (hm : m.wf = true) (addr : Nat) (v : Word)
    {k : Nat} (hk : k < 4) : (m.writeWord addr v).readByte (addr + k) = wordByte v k := by
  rw [Memory.readByte_writeWord hm, if_pos (by omega), Nat.add_sub_cancel_left]

theorem Memory.readByte_writeWord_outside {m : Memory} (hm : m.wf = true) {addr a : Nat} (v : Word)
    (ha : a < addr ∨ addr + 4 ≤ a) : (m.writeWord addr v).readByte a = m.readByte a := by
  rw [Memory.readByte_writeWord hm, if_neg (by omega)]

/-- The store of a word, as the four bytes and the frame of memory (20_memory.md R53). -/
theorem wordStored_setMem_writeWord {s : State} (hs : s.mem.wf = true) (addr : Nat) (v : Word) :
    WordStored addr v s (setMem (s.mem.writeWord addr v) s) :=
  have stored {k : Nat} (hk : k < 4) := Memory.readByte_writeWord_add hs addr v hk
  ⟨stored (k := 0) (by omega), stored (k := 1) (by omega), stored (k := 2) (by omega),
    stored (k := 3) (by omega), fun _ ha => Memory.readByte_writeWord_outside hs v ha⟩

theorem controlKept_setMem (m : Memory) (s : State) : ControlKept s (setMem m s) :=
  ⟨setMem_fpc s m, setMem_run s m, setMem_memCapacity s m, setMem_imageLen s m⟩

/-- A word read anywhere after the store of a word takes each byte from the word stored where the two
overlap and from the old memory elsewhere (20_memory.md R57). -/
theorem Memory.wordByte_readWord_writeWord {m : Memory} (hm : m.wf = true) (addr other : Nat)
    (v : Word) {k : Nat} (hk : k < 4) :
    wordByte ((m.writeWord addr v).readWord other) k =
      if addr ≤ other + k ∧ other + k < addr + 4 then wordByte v (other + k - addr)
      else m.readByte (other + k) := by
  rw [Memory.wordByte_readWord _ other hk, Memory.readByte_writeWord hm]

/-! ### The obligations -/

/-- Settles O41: the two arms of MemRead, and the value of the word read. -/
theorem memReadIsLittleEndian : Obligations.MemReadIsLittleEndian := fun addr s =>
  ⟨memRead_of_lt, fun hle =>
    ⟨s.mem.readWord addr, memRead_of_le hle, Memory.toNat_readWord s.mem addr⟩⟩

/-- Settles O42: the two arms of MemWrite; the second stores the word and sets the memory alone. -/
theorem memWriteStoresFourBytes : Obligations.MemWriteStoresFourBytes := fun addr v s hs =>
  ⟨memWrite_of_lt v, fun hle =>
    ⟨setMem (s.mem.writeWord addr v) s, memWrite_of_le v hle, wordStored_setMem_writeWord hs addr v,
      setMem_regs s _, setMem_flags s _, controlKept_setMem _ s⟩⟩

/-- Settles O43: the store keeps MEM_CAPACITY, so a read in bounds before it is in bounds after it,
at the address written and at any other. -/
theorem memoryRoundTrip : Obligations.MemoryRoundTrip := by
  intro addr v s hs hle
  have hread (other : Nat) (h : other + 4 ≤ s.memCapacity) :
      memRead other (setMem (s.mem.writeWord addr v) s) =
        .ok ((s.mem.writeWord addr v).readWord other) := memRead_of_le h
  refine ⟨_, memWrite_of_le v hle, ?_, fun other hother => ⟨_, hread other hother, fun k hk => ?_⟩⟩
  · rw [hread addr hle, Memory.readWord_writeWord hs]
  · exact Memory.wordByte_readWord_writeWord hs addr other v hk

end Sys2Proof.Machine
end

section
/-! PROOFS. The statement of 40_fetch_and_step.md about the halt test (R105). First what the execution
units leave of the fetch unit's state and of the two parameters (R103), the run state that the halt
test leaves, and the step around an operation that completes. -/

namespace Sys2Proof.Machine

/-! ### The fetch unit's state under an operation (40_fetch_and_step.md R103) -/

theorem controlKept_setReg (i : RegIdx) (v : Word) (s : State) : ControlKept s (setReg i v s) :=
  ⟨setReg_fpc s i v, setReg_run s i v, setReg_memCapacity s i v, setReg_imageLen s i v⟩

theorem controlKept_writeReg (i : RegIdx) (v : Int) (s : State) : ControlKept s (writeReg i v s) :=
  controlKept_setReg i (reduce v) s

theorem controlKept_updateFlags (r : Word) (s : State) : ControlKept s (updateFlags r s) :=
  ⟨updateFlags_fpc r s, updateFlags_run r s, updateFlags_memCapacity r s, updateFlags_imageLen r s⟩

theorem controlKept_writeResult (rd : RegIdx) (r : Word) (s : State) :
    ControlKept s (writeResult rd r s) :=
  ⟨writeResult_fpc rd r s, writeResult_run rd r s, writeResult_memCapacity rd r s,
    writeResult_imageLen rd r s⟩

theorem controlKept_refl (s : State) : ControlKept s s := ⟨rfl, rfl, rfl, rfl⟩

theorem ControlKept.trans {s t u : State} (hst : ControlKept s t) (htu : ControlKept t u) :
    ControlKept s u := by
  obtain ⟨hfpc, hrun, hcap, hlen⟩ := hst
  obtain ⟨hfpc', hrun', hcap', hlen'⟩ := htu
  exact ⟨hfpc'.trans hfpc, hrun'.trans hrun, hcap'.trans hcap, hlen'.trans hlen⟩

section ControlAfterExec
variable {i : Instr} {s t : State}

theorem execLdr_controlKept {rd rn : RegIdx} {offset : BitVec 12}
    (h : execLdr rd rn offset s = .next t) : ControlKept s t := by
  rw [execLdr_eq] at h
  split at h
  · cases h
    exact controlKept_setReg rd _ s
  · cases h

theorem execStr_controlKept {rd rn : RegIdx} {offset : BitVec 12}
    (h : execStr rd rn offset s = .next t) : ControlKept s t := by
  rw [execStr_eq] at h
  split at h
  · cases h
    exact controlKept_setMem _ s
  · cases h

/-- The form of `exec_controlKept` for an operation whose next state is known. -/
theorem controlKept_of_exec {u : State} (hi : exec i s = .next u) (hu : ControlKept s u)
    (h : exec i s = .next t) : ControlKept s t := by
  obtain rfl : u = t := Host.Outcome.next.inj (hi.symm.trans h)
  exact hu

/-- No operation that completes writes `fpc`, `run` or a parameter: each ends in a result, in flags,
in register writes or in a store. -/
theorem exec_controlKept (h : exec i s = .next t) : ControlKept s t := by
  cases i with
  | mov rd imm => exact controlKept_of_exec (exec_mov rd imm s) (controlKept_writeResult ..) h
  | add rd rn imm => exact controlKept_of_exec (exec_add rd rn imm s) (controlKept_writeResult ..) h
  | sub rd rn imm => exact controlKept_of_exec (exec_sub rd rn imm s) (controlKept_writeResult ..) h
  | cmp rn imm => exact controlKept_of_exec (exec_cmp rn imm s) (controlKept_updateFlags ..) h
  | and rd rn imm => exact controlKept_of_exec (exec_and rd rn imm s) (controlKept_writeResult ..) h
  | or rd rn imm => exact controlKept_of_exec (exec_or rd rn imm s) (controlKept_writeResult ..) h
  | xor rd rn imm => exact controlKept_of_exec (exec_xor rd rn imm s) (controlKept_writeResult ..) h
  | mul rd rn imm => exact controlKept_of_exec (exec_mul rd rn imm s) (controlKept_writeResult ..) h
  | mvn rd imm => exact controlKept_of_exec (exec_mvn rd imm s) (controlKept_writeResult ..) h
  | tst rn imm => exact controlKept_of_exec (exec_tst rn imm s) (controlKept_updateFlags ..) h
  | lsl rd rn shamt =>
    exact controlKept_of_exec (exec_lsl rd rn shamt s) (controlKept_writeResult ..) h
  | lsr rd rn shamt =>
    exact controlKept_of_exec (exec_lsr rd rn shamt s) (controlKept_writeResult ..) h
  | ldr rd rn offset => exact execLdr_controlKept ((exec_ldr rd rn s offset).symm.trans h)
  | str rd rn offset => exact execStr_controlKept ((exec_str rd rn s offset).symm.trans h)
  | b offset => exact controlKept_of_exec (exec_b s offset) (controlKept_writeReg ..) h
  | bl offset =>
    exact controlKept_of_exec (exec_bl s offset)
      ((controlKept_writeReg ..).trans (controlKept_writeReg ..)) h
  | unknown => exact controlKept_of_exec (exec_unknown s) (controlKept_refl s) h

end ControlAfterExec

/-! ### The halt test -/

@[simp] theorem haltTest_fpc (op : Instr) (s : State) : (haltTest op s).fpc = s.fpc := by
  rw [haltTest_eq, setRun_fpc]

@[simp] theorem haltTest_run (op : Instr) (s : State) :
    (haltTest op s).run = if op = .unknown then .haltedUnknown
      else if s.imageLen ≤ s.fpc.toNat then .haltedNormal else s.run := by
  rw [haltTest_eq, setRun_run]

/-! ### The step around an operation that completes -/

/-- A fetch and an operation that both succeed leave the advance and the halt test
(40_fetch_and_step.md R100). -/
theorem step_of_exec_next {s u : State} {w : Word} (hrun : s.run = .running)
    (hfetch : fetch s = .ok w) (hexec : exec (decode w) (loadPc s) = .next u) :
    step s = .next (haltTest (decode w) (advance u)) := by
  rw [step_of_running hrun, runStep, hfetch]
  simp only [runOperation, hexec]

/-- The run state the halt test reads after the advance is still RUNNING, and IMAGE_LEN is the one
the step started with. -/
theorem advance_run_imageLen_of_exec {i : Instr} {s u : State} (hrun : s.run = .running)
    (hexec : exec i (loadPc s) = .next u) :
    (advance u).run = .running ∧ (advance u).imageLen = s.imageLen := by
  obtain ⟨-, hkept, -, hlen⟩ := exec_controlKept hexec
  exact ⟨hkept.trans hrun, hlen⟩

/-! ### The obligation -/

/-- Settles O4: the step ends in the halt test, which finds `run` RUNNING and IMAGE_LEN unchanged
because no operation writes them; its three arms are the three clauses. -/
theorem haltTestAfterStep : Obligations.HaltTestAfterStep := by
  intro s u w hrun hfetch hexec
  obtain ⟨hrunning, hlen⟩ := advance_run_imageLen_of_exec hrun hexec
  refine ⟨_, step_of_exec_next hrun hfetch hexec, fun hu => ?_, fun hu hle => ?_, fun hu hlt => ?_⟩
  · rw [haltTest_run, if_pos hu]
  · rw [haltTest_fpc] at hle
    rw [haltTest_run, if_neg hu, hlen, if_pos hle]
  · rw [haltTest_fpc] at hlt
    rw [haltTest_run, if_neg hu, hlen, if_neg (Nat.not_le.2 hlt), hrunning]

end Sys2Proof.Machine
end

section
/-! PROOFS. The statements of 41_data_processing.md about MOV (R122), CMP (R125), MVN (R130) and TST
(R131). First the layer that every immediate-operand operation shares: the words of an opcode of
check 1, the zero-extended immediate, and all that a result or a setting of the flags changes. -/

namespace Sys2Proof

/-! ### The words of an opcode (30_encoding.md R74, R75) -/

/-- The mask of format DPI compares `i_bit` with 1 and the opcode with `opcode`. -/
theorem dpi_masked_iff (w : Word) (opcode : BitVec 4) :
    w &&& 0x03E00000#32 = 0b000000#6 ++ 1#1 ++ opcode ++ 0#21 ↔
      iBit w = 1#1 ∧ opcodeOf w = opcode := by
  constructor
  · intro h
    have hi := extractLsb'_of_mask h 25 1 rfl
    have hop := extractLsb'_of_mask h 21 4 rfl
    constructor
    · rw [iBit, hi]
      ext k hk
      simp only [BitVec.getElem_extractLsb', BitVec.getLsbD_append]
      interval_cases k; simp
    · rw [opcodeOf, hop]
      ext k hk
      simp only [BitVec.getElem_extractLsb', BitVec.getLsbD_append]
      interval_cases k <;> simp
  · rintro ⟨hi, rfl⟩
    have hbit := (iBit_eq_one_iff w).1 hi
    refine BitVec.eq_of_getLsbD_eq fun k hk => ?_
    simp only [opcodeOf, BitVec.getLsbD_and, BitVec.getLsbD_append]
    interval_cases k <;> simp [hbit]

/-- The opcode of check 1 that an operation is decoded under; the shifts share one (R75). -/
def Instr.opcode? : Instr → Option (BitVec 4)
  | .mov _ _ => some 0b1101#4
  | .add _ _ _ => some 0b0100#4
  | .sub _ _ _ => some 0b0010#4
  | .cmp _ _ => some 0b1010#4
  | .and _ _ _ => some 0b0000#4
  | .or _ _ _ => some 0b1100#4
  | .xor _ _ _ => some 0b0001#4
  | .mul _ _ _ => some 0b0110#4
  | .mvn _ _ => some 0b1111#4
  | .tst _ _ => some 0b1000#4
  | .lsl _ _ _ => some 0b0011#4
  | .lsr _ _ _ => some 0b0011#4
  | .ldr _ _ _ => none
  | .str _ _ _ => none
  | .b _ => none
  | .bl _ => none
  | .unknown => none

/-- The shift group has the one opcode 0011 (R76). -/
theorem opcode_eq_of_decodeShift {w : Word} {opcode : BitVec 4}
    (h : (decodeShift w).opcode? = some opcode) : opcode = 0b0011#4 := by
  unfold decodeShift at h
  split at h
  · exact (Option.some.inj h).symm
  · exact (Option.some.inj h).symm
  · cases h

theorem opcodeOf_of_decodeDataProcessing {w : Word} {opcode : BitVec 4}
    (h : (decodeDataProcessing w).opcode? = some opcode) : opcodeOf w = opcode := by
  unfold decodeDataProcessing at h
  -- The eleventh arm is the shift group, the twelfth UNKNOWN; the others are one operation each.
  split at h
  case h_11 hw => exact hw.trans (opcode_eq_of_decodeShift h).symm
  case h_12 => cases h
  all_goals next hw => exact hw.trans (Option.some.inj h)

/-- Checks 2 to 5 give no operation of check 1. -/
theorem opcode?_decode_of_iBit_ne {w : Word} (h : iBit w ≠ 1#1) : (decode w).opcode? = none := by
  unfold decode decodeLoadStore decodeBranch
  rw [if_neg h]
  split_ifs <;> rfl

/-- A word decodes to an operation of check 1 only with `i_bit` 1 and the operation's opcode. -/
theorem fields_of_decode {w : Word} {opcode : BitVec 4} (h : (decode w).opcode? = some opcode) :
    iBit w = 1#1 ∧ opcodeOf w = opcode := by
  have hi : iBit w = 1#1 := by
    by_contra hne
    rw [opcode?_decode_of_iBit_ne hne] at h
    cases h
  rw [decode_of_iBit hi] at h
  exact ⟨hi, opcodeOf_of_decodeDataProcessing h⟩

/-- The words of an operation i of check 1: those in the region of its opcode whose arm, the operation
j made of the word's own fields, is i. -/
theorem decode_eq_iff {w : Word} {opcode : BitVec 4} {i j : Instr} (hi : i.opcode? = some opcode)
    (hj : opcodeOf w = opcode → decodeDataProcessing w = j) :
    decode w = i ↔ w &&& 0x03E00000#32 = 0b000000#6 ++ 1#1 ++ opcode ++ 0#21 ∧ i = j := by
  rw [dpi_masked_iff]
  constructor
  · rintro rfl
    obtain ⟨hbit, hop⟩ := fields_of_decode hi
    exact ⟨⟨hbit, hop⟩, (decode_of_iBit hbit).trans (hj hop)⟩
  · rintro ⟨⟨hbit, hop⟩, rfl⟩
    exact (decode_of_iBit hbit).trans (hj hop)

/-! The arms of the opcode map (30_encoding.md R75). -/

theorem decodeDataProcessing_mov {w : Word} (h : opcodeOf w = 0b1101#4) :
    decodeDataProcessing w = .mov (rdOf w) (immOf w) := by
  simp only [decodeDataProcessing, h]
theorem decodeDataProcessing_cmp {w : Word} (h : opcodeOf w = 0b1010#4) :
    decodeDataProcessing w = .cmp (rnOf w) (immOf w) := by
  simp only [decodeDataProcessing, h]
theorem decodeDataProcessing_mvn {w : Word} (h : opcodeOf w = 0b1111#4) :
    decodeDataProcessing w = .mvn (rdOf w) (immOf w) := by
  simp only [decodeDataProcessing, h]
theorem decodeDataProcessing_tst {w : Word} (h : opcodeOf w = 0b1000#4) :
    decodeDataProcessing w = .tst (rnOf w) (immOf w) := by
  simp only [decodeDataProcessing, h]

section Words
variable (w : Word) (rd rn : RegIdx) (imm : BitVec 8)

theorem decode_eq_mov_iff : decode w = .mov rd imm ↔
    w &&& 0x03E00000#32 = 0x03A00000#32 ∧ rd = w.extractLsb' 12 4 ∧ imm = w.extractLsb' 0 8 := by
  rw [decode_eq_iff rfl decodeDataProcessing_mov, Instr.mov.injEq]
  rfl

theorem decode_eq_cmp_iff : decode w = .cmp rn imm ↔
    w &&& 0x03E00000#32 = 0x03400000#32 ∧ rn = w.extractLsb' 16 4 ∧ imm = w.extractLsb' 0 8 := by
  rw [decode_eq_iff rfl decodeDataProcessing_cmp, Instr.cmp.injEq]
  rfl

theorem decode_eq_mvn_iff : decode w = .mvn rd imm ↔
    w &&& 0x03E00000#32 = 0x03E00000#32 ∧ rd = w.extractLsb' 12 4 ∧ imm = w.extractLsb' 0 8 := by
  rw [decode_eq_iff rfl decodeDataProcessing_mvn, Instr.mvn.injEq]
  rfl

theorem decode_eq_tst_iff : decode w = .tst rn imm ↔
    w &&& 0x03E00000#32 = 0x03000000#32 ∧ rn = w.extractLsb' 16 4 ∧ imm = w.extractLsb' 0 8 := by
  rw [decode_eq_iff rfl decodeDataProcessing_tst, Instr.tst.injEq]
  rfl

end Words

namespace Machine

/-! ### The zero-extended immediate (30_encoding.md R79) -/

@[simp] theorem toNat_immWord (imm : BitVec 8) : (immWord imm).toNat = imm.toNat :=
  BitVec.toNat_setWidth_of_le (by decide)

theorem getLsbD_immWord (imm : BitVec 8) {k : Nat} (hk : k < 32) :
    (immWord imm).getLsbD k = imm.getLsbD k := by
  rw [immWord, BitVec.getLsbD_setWidth, decide_eq_true hk, Bool.true_and]

/-- The complement of a zero-extended immediate is a subtraction without a borrow. -/
theorem toNat_complement_immWord (imm : BitVec 8) :
    (0xFFFFFFFF#32 ^^^ immWord imm).toNat = 0xFFFFFFFF - imm.toNat := by
  have hnot : 0xFFFFFFFF#32 ^^^ immWord imm = ~~~immWord imm := BitVec.allOnes_xor
  rw [hnot, BitVec.toNat_not, toNat_immWord]

/-! ### All that a result changes, and all that a setting of the flags changes -/

/-- The advance as arithmetic (40_fetch_and_step.md R104). -/
theorem toNat_advance_fpc (s : State) :
    (advance s).fpc.toNat = ((getReg 15#4 s).toNat + 4) % 2 ^ 32 := by
  rw [advance_fpc, BitVec.toNat_add]
  rfl

theorem resultWritten_writeResult (rd : RegIdx) (r : Word) (s : State) :
    ResultWritten rd r s (writeResult rd r s) := by
  refine ⟨getReg_writeResult_same rd r s, flagsFrom_of_flags_eq (writeResult_flags rd r s),
    fun j hj => ?_, fun _ => rfl, controlKept_writeResult rd r s, ?_⟩
  · rw [getReg_writeResult, if_neg (List.ne_of_not_mem_cons hj)]
  · rintro rfl
    rw [toNat_advance_fpc, getReg_writeResult_same]

theorem onlyFlagsSet_updateFlags (r : Word) (s : State) : OnlyFlagsSet r s (updateFlags r s) :=
  ⟨flagsFrom_updateFlags r s, fun j _ => getReg_updateFlags j r s, fun _ => rfl,
    controlKept_updateFlags r s⟩

section FlagValues
variable {r : Word} {s t : State}

theorem FlagsFrom.z_eq_false (h : FlagsFrom r s t) (hr : 0 < r.toNat) : t.flags.z = false := by
  obtain ⟨hz, -⟩ := h
  exact Bool.eq_false_iff.2 fun hzero => hr.ne' (hz.1 hzero)

theorem FlagsFrom.n_eq_true (h : FlagsFrom r s t) (hr : 2 ^ 31 ≤ r.toNat) : t.flags.n = true := by
  obtain ⟨-, hn, -⟩ := h
  exact hn.2 hr

theorem FlagsFrom.n_eq_false (h : FlagsFrom r s t) (hr : r.toNat < 2 ^ 31) : t.flags.n = false := by
  obtain ⟨-, hn, -⟩ := h
  exact Bool.eq_false_iff.2 fun hneg => (hn.1 hneg).not_gt hr

end FlagValues

/-- An operation at `fpc` that completes is followed by the advance and the halt test
(40_fetch_and_step.md R100). -/
theorem runOperation_of_exec_next {op : Instr} {s u : State} (h : exec op (loadPc s) = .next u) :
    runOperation op s = .next (haltTest op (advance u)) := by
  simp only [runOperation, h]

/-- An operation other than UNKNOWN whose next fetch address is at or past the end of the image halts
the run normally (40_fetch_and_step.md R105). -/
theorem haltTest_run_of_le {op : Instr} {s : State} (hop : op ≠ .unknown)
    (h : s.imageLen ≤ s.fpc.toNat) : (haltTest op s).run = .haltedNormal := by
  rw [haltTest_run, if_neg hop, if_pos h]

/-- With destination 15 the next fetch comes from the result plus 4, which wraps only for an immediate
of at most 3 (41_data_processing.md R130). -/
theorem le_fpc_after_mvn_pc {imm : BitVec 8} (himm : 3 < imm.toNat) (s : State) :
    0xFFFFFF04 ≤ (advance (writeResult 15#4 (0xFFFFFFFF#32 ^^^ immWord imm) s)).fpc.toNat := by
  have hlt := imm.isLt
  rw [toNat_advance_fpc, getReg_writeResult_same, toNat_complement_immWord]
  omega

/-! ### The obligations -/

/-- Settles O9: MOV ends in the result `zext_32(imm)`. -/
theorem movWritesImmediate : Obligations.MovWritesImmediate :=
  ⟨decode_eq_mov_iff, fun rd imm s =>
    ⟨_, _, exec_mov rd imm s, toNat_immWord imm, resultWritten_writeResult rd _ s⟩⟩

/-- Settles O12: CMP sets the flags from the difference as an integer, reduced. -/
theorem cmpSetsFlagsOfDifference : Obligations.CmpSetsFlagsOfDifference := by
  refine ⟨decode_eq_cmp_iff, fun rn imm s =>
    ⟨_, _, exec_cmp rn imm s, ?_, onlyFlagsSet_updateFlags _ s⟩⟩
  rw [toNat_reduce, toNat_immWord]

/-- Settles O17: the result is at least 0xFFFFFF00, hence its flags, and with destination 15 and an
immediate above 3 the next fetch address lies past the image. -/
theorem mvnWritesComplement : Obligations.MvnWritesComplement := by
  refine ⟨decode_eq_mvn_iff, fun rd imm s => ?_, fun imm s himm hlen => ?_⟩
  · have hr := toNat_complement_immWord imm
    have hlt := imm.isLt
    have hflags := flagsFrom_of_flags_eq (writeResult_flags rd (0xFFFFFFFF#32 ^^^ immWord imm) s)
    exact ⟨_, _, exec_mvn rd imm s, hr, resultWritten_writeResult rd _ s,
      hflags.z_eq_false (by omega), hflags.n_eq_true (by omega)⟩
  · refine ⟨_, runOperation_of_exec_next (exec_mvn 15#4 imm (loadPc s)), ?_⟩
    exact haltTest_run_of_le Instr.noConfusion (hlen.trans (le_fpc_after_mvn_pc himm (loadPc s)))

/-- Settles O18: the conjunction is at most the immediate, so bit 31 is 0. -/
theorem tstSetsFlagsOfConjunction : Obligations.TstSetsFlagsOfConjunction := by
  refine ⟨decode_eq_tst_iff, fun rn imm s =>
    ⟨_, _, exec_tst rn imm s, fun k hk => ?_, onlyFlagsSet_updateFlags _ s,
      (flagsFrom_updateFlags _ s).n_eq_false ?_⟩⟩
  · rw [BitVec.getLsbD_and, getLsbD_immWord imm hk]
  · have hle : (getReg rn s &&& immWord imm).toNat ≤ imm.toNat := by
      rw [BitVec.toNat_and, toNat_immWord]
      exact Nat.and_le_right
    have hlt := imm.isLt
    omega

end Machine

end Sys2Proof
end

section
/-! PROOFS. The statement of 42_shifts.md about LSL (R140). First the words of the shift group,
which format SHI picks by one field more than format DPI (30_encoding.md R76), and the reduction of
a result that is a natural number. -/

namespace Sys2Proof

/-! ### The words of a shift (30_encoding.md R76) -/

/-- The mask of format SHI keeps three fields and clears the rest. -/
theorem shi_masked (w : Word) :
    w &&& 0x03E00060#32 = 0#6 ++ iBit w ++ opcodeOf w ++ 0#14 ++ shiftTypeOf w ++ 0#5 := by
  refine BitVec.eq_of_getLsbD_eq fun k hk => ?_
  simp only [iBit, opcodeOf, shiftTypeOf, BitVec.getLsbD_and, BitVec.getLsbD_append]
  interval_cases k <;> simp

/-- The mask of format SHI compares `i_bit`, the opcode and the shift type with those of a pattern
inside the mask. -/
theorem shi_masked_iff (w : Word) {pattern : Word} (hp : pattern &&& 0x03E00060#32 = pattern) :
    w &&& 0x03E00060#32 = pattern ↔
      iBit w = iBit pattern ∧ opcodeOf w = opcodeOf pattern ∧
        shiftTypeOf w = shiftTypeOf pattern := by
  constructor
  · intro h
    exact ⟨extractLsb'_of_mask h 25 1 rfl, extractLsb'_of_mask h 21 4 rfl,
      extractLsb'_of_mask h 5 2 rfl⟩
  · rintro ⟨hi, hop, htype⟩
    calc w &&& 0x03E00060#32
      _ = pattern &&& 0x03E00060#32 := by rw [shi_masked, shi_masked, hi, hop, htype]
      _ = pattern := hp

theorem decodeDataProcessing_shift {w : Word} (h : opcodeOf w = 0b0011#4) :
    decodeDataProcessing w = decodeShift w := by
  simp only [decodeDataProcessing, h]

section Words
variable (w : Word) (rd rn : RegIdx) (shamt : BitVec 5)

/-- Of the shift types only 00 is LSL. -/
theorem lsl_eq_decodeShift_iff : .lsl rd rn shamt = decodeShift w ↔
    shiftTypeOf w = 0b00#2 ∧ rd = rdOf w ∧ rn = rnOf w ∧ shamt = shamtOf w := by
  unfold decodeShift
  split
  case h_1 htype => simp [htype]
  case h_2 htype => simp [htype]
  case h_3 hne _ => exact iff_of_false Instr.noConfusion fun ⟨htype, _⟩ => hne htype

theorem decode_eq_lsl_iff : decode w = .lsl rd rn shamt ↔
    w &&& 0x03E00060#32 = 0x02600000#32 ∧ rd = w.extractLsb' 12 4 ∧ rn = w.extractLsb' 16 4 ∧
      shamt = w.extractLsb' 7 5 := by
  rw [decode_eq_iff rfl decodeDataProcessing_shift, dpi_masked_iff, lsl_eq_decodeShift_iff,
    shi_masked_iff w rfl]
  simp only [and_assoc]
  rfl

end Words

namespace Machine

/-- The reduction of a natural number, as arithmetic. -/
theorem toNat_reduce_natCast (n : Nat) : (reduce (n : Int)).toNat = n % 2 ^ 32 := by
  rw [reduce_natCast, BitVec.toNat_ofNat]

/-! ### The obligation -/

/-- Settles O19: LSL is the shift type 00 of its group, and it ends in the result that reduces the
product by the power of two. -/
theorem lslWritesLeftShift : Obligations.LslWritesLeftShift := by
  refine ⟨decode_eq_lsl_iff, fun rd rn shamt s =>
    ⟨_, _, exec_lsl rd rn shamt s, ?_, resultWritten_writeResult rd _ s⟩⟩
  exact_mod_cast toNat_reduce_natCast ((getReg rn s).toNat * 2 ^ shamt.toNat)

end Machine

end Sys2Proof
end

section
/-! PROOFS. The statement of 43_load_store.md about the reach of LDR and STR (R153). LDR and STR
differ only in the state they complete with; what they share is said once. -/

namespace Sys2Proof.Machine

section LoadStore
variable {rd rn : RegIdx} {offset : BitVec 12} {s : State} {i : Instr}

/-- LDR and STR take the same bounds check at the same address, and nothing else decides between
completion and the fault (43_load_store.md R153). -/
theorem exec_ldr_or_str (hi : i = .ldr rd rn offset ∨ i = .str rd rn offset) :
    ∃ u, exec i s =
      if effectiveAddress rn offset s + 4 ≤ s.memCapacity then .next u
      else .fault (.memOutOfBounds (effectiveAddress rn offset s)) := by
  obtain rfl | rfl := hi
  · exact ⟨_, (exec_ldr rd rn s offset).trans (execLdr_eq rd rn offset s)⟩
  · exact ⟨_, (exec_str rd rn s offset).trans (execStr_eq rd rn offset s)⟩

theorem exec_ldr_or_str_next_iff (hi : i = .ldr rd rn offset ∨ i = .str rd rn offset) :
    (∃ t, exec i s = .next t) ↔ effectiveAddress rn offset s + 4 ≤ s.memCapacity := by
  obtain ⟨u, hu⟩ := exec_ldr_or_str (s := s) hi
  rw [hu]
  split
  case isTrue hle => exact iff_of_true ⟨u, rfl⟩ hle
  case isFalse hgt => exact iff_of_false nofun hgt

theorem exec_ldr_or_str_fault_iff (hi : i = .ldr rd rn offset ∨ i = .str rd rn offset)
    (kind : Fault) : exec i s = .fault kind ↔
      s.memCapacity < effectiveAddress rn offset s + 4 ∧
        kind = .memOutOfBounds (effectiveAddress rn offset s) := by
  obtain ⟨u, hu⟩ := exec_ldr_or_str (s := s) hi
  rw [hu]
  split
  case isTrue hle => exact iff_of_false nofun fun ⟨hlt, _⟩ => hlt.not_ge hle
  case isFalse hgt =>
    rw [Host.Outcome.fault.injEq, and_iff_right (Nat.not_le.1 hgt)]
    exact eq_comm

end LoadStore

/-! ### The obligation -/

/-- Settles O23: one bounds check decides both operations, and at the capacity 4096 its last address
is 4092. -/
theorem loadStoreReach : Obligations.LoadStoreReach := by
  intro rd rn offset s i hi
  refine ⟨exec_ldr_or_str_next_iff hi, exec_ldr_or_str_fault_iff hi, fun hcap => ?_⟩
  rw [exec_ldr_or_str_next_iff hi, hcap]
  exact Nat.add_le_add_iff_right (k := 4092)

end Sys2Proof.Machine
end

section
/-! PROOFS. The statements of 44_branch.md about the next fetch after B (R162) and about the link and
the next fetch of BL (R163). First what both share: the target written to `x[15]` is 4 short of where
the branch goes, and the advance adds 4 (40_fetch_and_step.md R110). -/

namespace Sys2Proof.Machine

@[simp] theorem getReg_haltTest (j : RegIdx) (op : Instr) (s : State) :
    getReg j (haltTest op s) = getReg j s := by
  rw [haltTest_eq, getReg_setRun]

/-! ### The target and the link -/

/-- The 4 that the target subtracts and the 4 that the advance adds cancel modulo 2^32, also where the
target is negative (p + offset < 4). The target is taken from s and written to u, since BL has written
`x[14]` in between. -/
theorem toNat_advance_fpc_branchTarget (offset : BitVec 26) (s u : State) :
    (advance (writeReg Config.pcIndex (branchTarget offset s) u)).fpc.toNat =
      ((getReg Config.pcIndex s).toNat + offset.toNat) % 2 ^ 32 := by
  have htarget := toNat_reduce (branchTarget offset s)
  rw [toNat_advance_fpc, getReg_writeReg_same]
  unfold branchTarget at htarget ⊢
  omega

/-- The link value as arithmetic (44_branch.md R161). -/
theorem toNat_reduce_linkValue (s : State) :
    (reduce (linkValue s)).toNat = ((getReg Config.pcIndex s).toNat + 4) % 2 ^ 32 :=
  toNat_reduce_natCast ((getReg Config.pcIndex s).toNat + 4)

/-- The write of the target to `x[15]` keeps the link in `x[14]`. -/
theorem getReg_lr_of_link (v l : Int) (s : State) :
    getReg Config.lrIndex (writeReg Config.pcIndex v (writeReg Config.lrIndex l s)) = reduce l :=
  calc getReg Config.lrIndex (writeReg Config.pcIndex v (writeReg Config.lrIndex l s))
    _ = getReg Config.lrIndex (writeReg Config.lrIndex l s) :=
      regsKeptExcept_writeReg Config.pcIndex v _ Config.lrIndex (by decide)
    _ = reduce l := getReg_writeReg_same Config.lrIndex l s

/-- A branch presented at the fetch address p, whatever else it writes before its target, makes the next
fetch come from p + offset: line 3 of the step has put p in `x[15]`. -/
theorem toNat_fpc_after_branch (op : Instr) (offset : BitVec 26) (s u : State) :
    (haltTest op
      (advance (writeReg Config.pcIndex (branchTarget offset (loadPc s)) u))).fpc.toNat =
      (s.fpc.toNat + offset.toNat) % 2 ^ 32 := by
  rw [haltTest_fpc, toNat_advance_fpc_branchTarget, getReg_pc_loadPc]

/-! ### The obligations -/

/-- Settles O27: the advance cancels the 4 that the target of B subtracts; in the step around it p is
the fetch address. -/
theorem branchOffsetLaw : Obligations.BranchOffsetLaw := fun offset s _ =>
  ⟨⟨_, exec_b s offset, toNat_advance_fpc_branchTarget offset s s⟩,
    ⟨_, runOperation_of_exec_next (exec_b (loadPc s) offset), toNat_fpc_after_branch _ offset s _⟩⟩

/-- Settles O28: BL computes the link and the target from the same `x[15]`, the fetch address; the
write of `x[15]`, the advance and the halt test leave the link in `x[14]`. -/
theorem branchLinkLaw : Obligations.BranchLinkLaw := by
  intro offset s _
  refine ⟨_, runOperation_of_exec_next (exec_bl (loadPc s) offset), ?_,
    toNat_fpc_after_branch _ offset s _⟩
  rw [getReg_haltTest, getReg_advance, getReg_lr_of_link, toNat_reduce_linkValue, getReg_pc_loadPc]

end Sys2Proof.Machine
end

section
/-! PROOFS. What an operation can do, said once (40_fetch_and_step.md R103): the form of its next
state, the one fault it can raise, and that its answer is determined by what it reads. Then the
statements that follow: 10_state.md R23, 40_fetch_and_step.md R103, 60_exceptions.md R181. -/

namespace Sys2Proof.Machine

/-! ### The answers of an operation -/

/-- What an operation that completes makes of the state: a result with its flags, flags alone, one
register, the link and the target of BL, a stored word, or nothing. -/
inductive Effect (i : Instr) (s : State) : State → Prop
  | result {rd : RegIdx} (r : Word) (hrd : rd ∈ regsWritten i) : Effect i s (writeResult rd r s)
  | onlyFlags (r : Word) : Effect i s (updateFlags r s)
  | register {rd : RegIdx} (v : Word) (hrd : rd ∈ regsWritten i) : Effect i s (setReg rd v s)
  | link (target l : Word) (hpc : Config.pcIndex ∈ regsWritten i)
      (hlr : Config.lrIndex ∈ regsWritten i) :
      Effect i s (setReg Config.pcIndex target (setReg Config.lrIndex l s))
  | store {rd rn : RegIdx} {offset : BitVec 12} (hi : i = .str rd rn offset)
      (hle : effectiveAddress rn offset s + 4 ≤ s.memCapacity) :
      Effect i s (setMem (s.mem.writeWord (effectiveAddress rn offset s) (getReg rd s)) s)
  | unchanged : Effect i s s

/-- What an operation can answer: a next state of one of the forms of `Effect`, or the address
fault of a load or store. -/
inductive Answer (i : Instr) (s : State) : Host.Outcome State Fault Refusal → Prop
  | next {t : State} (ht : Effect i s t) : Answer i s (.next t)
  | fault {rd rn : RegIdx} {offset : BitVec 12} (hi : i = .ldr rd rn offset ∨ i = .str rd rn offset)
      (hlt : s.memCapacity < effectiveAddress rn offset s + 4) :
      Answer i s (.fault (.memOutOfBounds (effectiveAddress rn offset s)))

/-- Every operation answers in one of these forms; none is refused. -/
theorem exec_answer (i : Instr) (s : State) : Answer i s (exec i s) := by
  cases i with
  | mov rd imm => exact .next (.result _ (List.mem_singleton_self rd))
  | add rd rn imm => exact .next (.result _ (List.mem_singleton_self rd))
  | sub rd rn imm => exact .next (.result _ (List.mem_singleton_self rd))
  | cmp rn imm => exact .next (.onlyFlags _)
  | and rd rn imm => exact .next (.result _ (List.mem_singleton_self rd))
  | or rd rn imm => exact .next (.result _ (List.mem_singleton_self rd))
  | xor rd rn imm => exact .next (.result _ (List.mem_singleton_self rd))
  | mul rd rn imm => exact .next (.result _ (List.mem_singleton_self rd))
  | mvn rd imm => exact .next (.result _ (List.mem_singleton_self rd))
  | tst rn imm => exact .next (.onlyFlags _)
  | lsl rd rn shamt => exact .next (.result _ (List.mem_singleton_self rd))
  | lsr rd rn shamt => exact .next (.result _ (List.mem_singleton_self rd))
  | ldr rd rn offset =>
    rw [exec_ldr, execLdr_eq]
    split
    case isTrue => exact .next (.register _ (List.mem_singleton_self rd))
    case isFalse hgt => exact .fault (.inl rfl) (Nat.not_le.1 hgt)
  | str rd rn offset =>
    rw [exec_str, execStr_eq]
    split
    case isTrue hle => exact .next (.store rfl hle)
    case isFalse hgt => exact .fault (.inr rfl) (Nat.not_le.1 hgt)
  | b offset => exact .next (.register _ (List.mem_singleton_self _))
  | bl offset => exact .next (.link _ _ (by simp [regsWritten]) (by simp [regsWritten]))
  | unknown => exact .next .unchanged

section Answers
variable {i : Instr} {s t : State}

theorem effect_of_exec (h : exec i s = .next t) : Effect i s t := by
  have ha := exec_answer i s
  rw [h] at ha
  cases ha with
  | next ht => exact ht

theorem exec_fault_cases {kind : Fault} (h : exec i s = .fault kind) :
    ∃ (rd rn : RegIdx) (offset : BitVec 12), (i = .ldr rd rn offset ∨ i = .str rd rn offset) ∧
      kind = .memOutOfBounds (effectiveAddress rn offset s) ∧
      s.memCapacity < effectiveAddress rn offset s + 4 := by
  have ha := exec_answer i s
  rw [h] at ha
  cases ha with
  | fault hi hlt => exact ⟨_, _, _, hi, rfl, hlt⟩

theorem exec_ne_refused (r : Refusal) : exec i s ≠ .refused r := by
  intro h
  have ha := exec_answer i s
  rw [h] at ha
  cases ha

/-! ### What each effect leaves -/

/-- Only the registers an operation writes can change. -/
theorem Effect.regsKept (h : Effect i s t) : RegsKeptExcept (regsWritten i) s t := by
  intro j hj
  have hne {d : RegIdx} (hd : d ∈ regsWritten i) : j ≠ d := fun e => hj (e ▸ hd)
  cases h with
  | result r hrd => rw [getReg_writeResult, if_neg (hne hrd)]
  | onlyFlags r => exact getReg_updateFlags j r s
  | register v hrd => exact getReg_setReg_ne (hne hrd) v s
  | link target l hpc hlr => rw [getReg_setReg_ne (hne hpc), getReg_setReg_ne (hne hlr)]
  | store => exact getReg_setMem j _ s
  | unchanged => rfl

/-- The flags stay or are those of a result. -/
theorem Effect.flags (h : Effect i s t) :
    t.flags = s.flags ∨ ∃ r, t.flags = flagsAfter r s.flags := by
  cases h with
  | result r _ => exact .inr ⟨r, writeResult_flags _ r s⟩
  | onlyFlags r => exact .inr ⟨r, updateFlags_flags r s⟩
  | register => exact .inl rfl
  | link => exact .inl rfl
  | store => exact .inl rfl
  | unchanged => exact .inl rfl

/-- The memory stays, unless the operation is an STR that stores its word. -/
theorem Effect.mem (h : Effect i s t) : t.mem = s.mem ∨ ∃ (rd rn : RegIdx) (offset : BitVec 12),
    i = .str rd rn offset ∧ effectiveAddress rn offset s + 4 ≤ s.memCapacity ∧
      t.mem = s.mem.writeWord (effectiveAddress rn offset s) (getReg rd s) := by
  cases h with
  | result r _ => exact .inl (writeResult_mem _ r s)
  | onlyFlags => exact .inl rfl
  | register => exact .inl rfl
  | link => exact .inl rfl
  | store hi hle => exact .inr ⟨_, _, _, hi, hle, rfl⟩
  | unchanged => exact .inl rfl

/-- C and V are never written (10_state.md R31). -/
theorem Effect.carryOverflowKept (h : Effect i s t) :
    t.flags.c = s.flags.c ∧ t.flags.v = s.flags.v := by
  obtain hf | ⟨r, hf⟩ := h.flags
  · rw [hf]; exact ⟨rfl, rfl⟩
  · rw [hf]; exact ⟨flagsAfter_c r s.flags, flagsAfter_v r s.flags⟩

end Answers

/-! ### An operation is determined by what it reads -/

/-- The states s and s' give the operation the same registers it reads, the same memory and the same
bound. -/
structure ReadsAlike (i : Instr) (s s' : State) : Prop where
  regs : ∀ j ∈ regsRead i, getReg j s' = getReg j s
  mem : s'.mem = s.mem
  memCapacity : s'.memCapacity = s.memCapacity

/-- The operation, run from s and from s', answers alike: the same fault, or next states that agree
on the registers it writes, on the memory, and on the flags if s and s' do. -/
inductive AnswersAlike (i : Instr) (s s' : State) :
    Host.Outcome State Fault Refusal → Host.Outcome State Fault Refusal → Prop
  | next {t t' : State} (regs : ∀ d ∈ regsWritten i, getReg d t' = getReg d t)
      (mem : t'.mem = t.mem) (flags : s'.flags = s.flags → t'.flags = t.flags) :
      AnswersAlike i s s' (.next t) (.next t')
  | fault (kind : Fault) : AnswersAlike i s s' (.fault kind) (.fault kind)

section Determined
variable {i : Instr} {s s' : State} (hs : ReadsAlike i s s')
include hs

theorem ReadsAlike.only {rn : RegIdx} (hi : regsRead i = [rn]) : getReg rn s' = getReg rn s :=
  hs.regs rn (hi ▸ List.mem_singleton_self rn)

theorem ReadsAlike.writeResult {rd : RegIdx} {r r' : Word} (hi : regsWritten i = [rd])
    (hr : r' = r) :
    AnswersAlike i s s' (.next (writeResult rd r s)) (.next (writeResult rd r' s')) := by
  refine .next (fun d hd => ?_) hs.mem fun hf => ?_
  · obtain rfl : d = rd := List.mem_singleton.1 (hi ▸ hd)
    rw [getReg_writeResult_same, getReg_writeResult_same, hr]
  · rw [writeResult_flags, writeResult_flags, hr, hf]

theorem ReadsAlike.updateFlags {r r' : Word} (hi : regsWritten i = []) (hr : r' = r) :
    AnswersAlike i s s' (.next (updateFlags r s)) (.next (updateFlags r' s')) := by
  refine .next (fun d hd => absurd (hi ▸ hd) List.not_mem_nil) hs.mem fun hf => ?_
  rw [updateFlags_flags, updateFlags_flags, hr, hf]

theorem ReadsAlike.setReg {rd : RegIdx} {v v' : Word} (hi : regsWritten i = [rd]) (hv : v' = v) :
    AnswersAlike i s s' (.next (setReg rd v s)) (.next (setReg rd v' s')) := by
  refine .next (fun d hd => ?_) hs.mem id
  obtain rfl : d = rd := List.mem_singleton.1 (hi ▸ hd)
  rw [getReg_setReg_same, getReg_setReg_same, hv]

theorem ReadsAlike.effectiveAddress {rn : RegIdx} (hrn : rn ∈ regsRead i) (offset : BitVec 12) :
    effectiveAddress rn offset s' = effectiveAddress rn offset s := by
  unfold Machine.effectiveAddress
  rw [hs.regs rn hrn]

/-- Run from states that give it the same to read, an operation answers alike (10_state.md R23). -/
theorem exec_answersAlike : AnswersAlike i s s' (exec i s) (exec i s') := by
  cases i with
  | mov rd imm => exact hs.writeResult rfl rfl
  | add rd rn imm => exact hs.writeResult rfl (by rw [hs.only rfl])
  | sub rd rn imm => exact hs.writeResult rfl (by rw [hs.only rfl])
  | cmp rn imm => exact hs.updateFlags rfl (by rw [hs.only rfl])
  | and rd rn imm => exact hs.writeResult rfl (by rw [hs.only rfl])
  | or rd rn imm => exact hs.writeResult rfl (by rw [hs.only rfl])
  | xor rd rn imm => exact hs.writeResult rfl (by rw [hs.only rfl])
  | mul rd rn imm => exact hs.writeResult rfl (by rw [hs.only rfl])
  | mvn rd imm => exact hs.writeResult rfl rfl
  | tst rn imm => exact hs.updateFlags rfl (by rw [hs.only rfl])
  | lsl rd rn shamt => exact hs.writeResult rfl (by rw [hs.only rfl])
  | lsr rd rn shamt => exact hs.writeResult rfl (by rw [hs.only rfl])
  | ldr rd rn offset =>
    have haddr := hs.effectiveAddress (List.mem_singleton_self rn) offset
    rw [exec_ldr, exec_ldr, execLdr_eq, execLdr_eq, haddr, hs.mem, hs.memCapacity]
    split
    · exact hs.setReg rfl rfl
    · exact .fault _
  | str rd rn offset =>
    have haddr := hs.effectiveAddress (rn := rn) List.mem_cons_self offset
    have hrd : getReg rd s' = getReg rd s := hs.regs rd (List.mem_cons_of_mem rn List.mem_cons_self)
    rw [exec_str, exec_str, execStr_eq, execStr_eq, haddr, hrd, hs.mem, hs.memCapacity]
    split
    · exact .next (fun d hd => absurd hd List.not_mem_nil) rfl id
    · exact .fault _
  | b offset =>
    exact hs.setReg rfl (by rw [branchTarget, branchTarget, hs.only rfl])
  | bl offset =>
    rw [exec_bl, exec_bl, branchTarget, branchTarget, linkValue, linkValue, hs.only rfl]
    refine .next (fun d hd => ?_) hs.mem id
    simp only [writeReg, getReg_setReg]
    rw [regsWritten, List.mem_cons, List.mem_singleton] at hd
    obtain rfl | rfl := hd
    · rfl
    · rfl
  | unknown => exact .next (fun d hd => absurd hd List.not_mem_nil) hs.mem id

end Determined

section SameRegisters
variable {i : Instr} {s s' t : State}

theorem exec_fault_of_readsAlike (hs : ReadsAlike i s s') {kind : Fault}
    (h : exec i s = .fault kind) : exec i s' = .fault kind := by
  have halike := exec_answersAlike hs
  rw [h] at halike
  generalize exec i s' = o at halike ⊢
  cases halike
  rfl

/-- From a state with the same registers, memory and bound an operation completes with the same
registers and memory: those it writes agree, and it keeps the others. -/
theorem exec_next_of_sameRegs (hregs : ∀ j, getReg j s' = getReg j s) (hmem : s'.mem = s.mem)
    (hcap : s'.memCapacity = s.memCapacity) (h : exec i s = .next t) :
    ∃ t', exec i s' = .next t' ∧ t'.regs = t.regs ∧ t'.mem = t.mem ∧
      (s'.flags = s.flags → t'.flags = t.flags) := by
  have halike := exec_answersAlike (i := i)
    { regs := fun j _ => hregs j, mem := hmem, memCapacity := hcap }
  rw [h] at halike
  generalize ho : exec i s' = o at halike
  cases halike with
  | next regs mem flags =>
    refine ⟨_, rfl, regs_eq_of_getReg fun j => ?_, mem, flags⟩
    by_cases hj : j ∈ regsWritten i
    · exact regs j hj
    · rw [(effect_of_exec ho).regsKept j hj, (effect_of_exec h).regsKept j hj, hregs]

end SameRegisters

/-- With another `fpc` and `run` an operation completes with the same of everything else. -/
theorem exec_setRun_setFpc {i : Instr} {s t : State} (r : RunState) (a : Word)
    (h : exec i s = .next t) : exec i (setRun r (setFpc a s)) = .next (setRun r (setFpc a t)) := by
  obtain ⟨t', ht', hregs, hmem, hflags⟩ :=
    exec_next_of_sameRegs (s := s) (s' := setRun r (setFpc a s)) (fun _ => rfl) rfl rfl h
  obtain ⟨hfpc', hrun', hcap', hlen'⟩ := exec_controlKept ht'
  obtain ⟨-, -, hcap, hlen⟩ := exec_controlKept h
  rw [ht', Host.Outcome.next.injEq, State.mk.injEq]
  exact ⟨hregs, hflags rfl, hfpc', hrun', hmem, hcap'.trans hcap.symm, hlen'.trans hlen.symm⟩

/-- With other flags an operation completes with the same of everything but the flags
(10_state.md R32). -/
theorem exec_setFlags {i : Instr} {s t : State} (f : Flags) (h : exec i s = .next t) :
    ∃ t', exec i (setFlags f s) = .next t' ∧ setFlags t.flags t' = t := by
  obtain ⟨t', ht', hregs, hmem, -⟩ :=
    exec_next_of_sameRegs (s := s) (s' := setFlags f s) (fun _ => rfl) rfl rfl h
  obtain ⟨hfpc', hrun', hcap', hlen'⟩ := exec_controlKept ht'
  obtain ⟨hfpc, hrun, hcap, hlen⟩ := exec_controlKept h
  refine ⟨t', ht', (State.mk.injEq ..).mpr ?_⟩
  exact ⟨hregs, rfl, hfpc'.trans hfpc.symm, hrun'.trans hrun.symm, hmem, hcap'.trans hcap.symm,
    hlen'.trans hlen.symm⟩

/-! ### The obligations -/

/-- Settles O33: each form of effect writes only registers of the list. -/
theorem onlyListedRegistersWritten : Obligations.OnlyListedRegistersWritten :=
  fun _ _ _ h => (effect_of_exec h).regsKept

/-- Settles O35: the bounds check of LDR and STR is the one way to fault. -/
theorem onlyLoadAndStoreFault : Obligations.OnlyLoadAndStoreFault :=
  fun _ _ _ h => exec_fault_cases h

/-- Settles O34: another value in a register that is not read leaves all that the operation reads.
-/
theorem onlyListedRegistersRead : Obligations.OnlyListedRegistersRead := by
  intro i s j v hj
  have hs : ReadsAlike i s (setReg j v s) :=
    { regs := fun d hd => getReg_setReg_ne (ne_of_mem_of_not_mem hd hj) v s, mem := rfl,
      memCapacity := rfl }
  have halike := exec_answersAlike hs
  generalize exec i s = o, exec i (setReg j v s) = o' at halike ⊢
  cases halike with
  | next regs mem flags => exact ⟨_, rfl, flags rfl, mem, regs⟩
  | fault kind => rfl

/-- Settles O7: an operation keeps `fpc`, `run` and the parameters, and what it reads lies in the
registers, the memory and its bound. -/
theorem unitsIgnoreFetchState : Obligations.UnitsIgnoreFetchState := by
  intro i s a r
  have hs : ReadsAlike i s (setRun r (setFpc a s)) :=
    { regs := fun _ _ => rfl, mem := rfl, memCapacity := rfl }
  cases h : exec i s with
  | next t => exact ⟨exec_controlKept h, exec_setRun_setFpc r a h⟩
  | fault kind => exact exec_fault_of_readsAlike hs h
  | refused reason => exact exec_ne_refused reason h

end Sys2Proof.Machine
end

section
/-! PROOFS. The statements of 30_encoding.md: the round trip of decode and encode (R88), the words
of the branch patterns (R80), the words that are UNKNOWN (R82), the unexamined bits (R81), and the
admitted operations (R71). First the masked comparisons and the arms of the decode algorithm they
share. -/

namespace Sys2Proof

/-! ### A comparison under a mask that covers one field -/

/-- When the mask is the one field of n bits from lo, a masked comparison compares that field. -/
theorem masked_iff_field {mask pattern : Word} {lo n : Nat}
    (hcovers : mask.extractLsb' lo n = BitVec.allOnes n)
    (houtside : ∀ k < 32, ¬ (lo ≤ k ∧ k < lo + n) → mask.getLsbD k = false)
    (hpattern : pattern &&& mask = pattern) (w : Word) :
    w &&& mask = pattern ↔ w.extractLsb' lo n = pattern.extractLsb' lo n := by
  refine ⟨fun h => extractLsb'_of_mask h lo n hcovers, fun h => ?_⟩
  rw [← hpattern]
  refine BitVec.eq_of_getLsbD_eq fun k hk => ?_
  rw [BitVec.getLsbD_and, BitVec.getLsbD_and]
  by_cases hin : lo ≤ k ∧ k < lo + n
  · obtain ⟨hlo, hhi⟩ := hin
    obtain ⟨j, rfl⟩ := Nat.exists_eq_add_of_le hlo
    have hj : j < n := by omega
    have hbit := congrArg (BitVec.getLsbD · j) h
    simp only [BitVec.getLsbD_extractLsb', hj, decide_true, Bool.true_and] at hbit
    rw [hbit]
  · rw [houtside k hk hin, Bool.and_false, Bool.and_false]

theorem iBit_masked_iff (w : Word) : w &&& 0x02000000#32 = 0x02000000#32 ↔ iBit w = 1#1 :=
  masked_iff_field (lo := 25) (n := 1) rfl (by decide) rfl w

theorem opcode_masked_iff (w : Word) :
    w &&& 0x01E00000#32 = 0x00600000#32 ↔ opcodeOf w = 0b0011#4 :=
  masked_iff_field (lo := 21) (n := 4) rfl (by decide) rfl w

theorem lsClass_masked_iff (w : Word) :
    w &&& 0x0C000000#32 = 0x04000000#32 ↔ lsClassOf w = 0b01#2 :=
  masked_iff_field (lo := 26) (n := 2) rfl (by decide) rfl w

/-- Of the opcode, the masks that tell the formats of R74 apart keep w[24], w[23] and w[21]. -/
theorem opcode_and_of_masked {w pattern : Word} (h : w &&& 0x01A00000#32 = pattern) :
    opcodeOf w &&& 0b1101#4 = opcodeOf pattern := by
  rw [← h, opcodeOf, opcodeOf, BitVec.extractLsb'_and]
  rfl

/-! ### The arms of the decode algorithm (30_encoding.md R73) -/

section Arms
variable {w : Word}

theorem decodeDataProcessing_add (h : opcodeOf w = 0b0100#4) :
    decodeDataProcessing w = .add (rdOf w) (rnOf w) (immOf w) := by
  simp only [decodeDataProcessing, h]
theorem decodeDataProcessing_sub (h : opcodeOf w = 0b0010#4) :
    decodeDataProcessing w = .sub (rdOf w) (rnOf w) (immOf w) := by
  simp only [decodeDataProcessing, h]
theorem decodeDataProcessing_and (h : opcodeOf w = 0b0000#4) :
    decodeDataProcessing w = .and (rdOf w) (rnOf w) (immOf w) := by
  simp only [decodeDataProcessing, h]
theorem decodeDataProcessing_or (h : opcodeOf w = 0b1100#4) :
    decodeDataProcessing w = .or (rdOf w) (rnOf w) (immOf w) := by
  simp only [decodeDataProcessing, h]
theorem decodeDataProcessing_xor (h : opcodeOf w = 0b0001#4) :
    decodeDataProcessing w = .xor (rdOf w) (rnOf w) (immOf w) := by
  simp only [decodeDataProcessing, h]
theorem decodeDataProcessing_mul (h : opcodeOf w = 0b0110#4) :
    decodeDataProcessing w = .mul (rdOf w) (rnOf w) (immOf w) := by
  simp only [decodeDataProcessing, h]

theorem decodeShift_lsl (h : shiftTypeOf w = 0b00#2) :
    decodeShift w = .lsl (rdOf w) (rnOf w) (shamtOf w) := by
  simp only [decodeShift, h]
theorem decodeShift_lsr (h : shiftTypeOf w = 0b01#2) :
    decodeShift w = .lsr (rdOf w) (rnOf w) (shamtOf w) := by
  simp only [decodeShift, h]

theorem decodeLoadStore_ldr (h : lBit w = 1#1) :
    decodeLoadStore w = .ldr (rdOf w) (rnOf w) (lsOffsetOf w) := if_pos h
theorem decodeLoadStore_str (h : lBit w = 0#1) :
    decodeLoadStore w = .str (rdOf w) (rnOf w) (lsOffsetOf w) :=
  if_neg (by rw [h]; decide)

theorem decode_of_loadStore (hi : iBit w = 0#1) (hls : lsClassOf w = 0b01#2) :
    decode w = decodeLoadStore w := by
  rw [decode, if_neg (by rw [hi]; decide), if_pos hls]

/-- `i_bit` is bit 1 of `br_class`. -/
theorem brClassOf_getLsbD_one (w : Word) : (brClassOf w).getLsbD 1 = (iBit w).getLsbD 0 := by
  simp [brClassOf, iBit]

/-- Checks 3 and 4 are never met, since their patterns have `i_bit` 1 (30_encoding.md R80). -/
theorem decode_of_other (hi : iBit w = 0#1) (hls : lsClassOf w ≠ 0b01#2) : decode w = .unknown := by
  have hbit : (brClassOf w).getLsbD 1 = false := by rw [brClassOf_getLsbD_one, hi]; rfl
  have hb : brClassOf w ≠ 0b1010#4 := fun h => by rw [h] at hbit; exact absurd hbit (by decide)
  have hbl : brClassOf w ≠ 0b1011#4 := fun h => by rw [h] at hbit; exact absurd hbit (by decide)
  rw [decode, if_neg (by rw [hi]; decide), if_neg hls, decodeBranch, if_neg hb, if_neg hbl]

theorem eq_zero_of_ne_one {b : BitVec 1} (h : b ≠ 1#1) : b = 0#1 :=
  (BitVec.eq_zero_or_eq_one b).resolve_right h

/-- The three ways a word is decoded (30_encoding.md R73, R80). -/
theorem decode_cases (w : Word) :
    (iBit w = 1#1 ∧ decode w = decodeDataProcessing w) ∨
    (iBit w = 0#1 ∧ lsClassOf w = 0b01#2 ∧ decode w = decodeLoadStore w) ∨
    (iBit w = 0#1 ∧ lsClassOf w ≠ 0b01#2 ∧ decode w = .unknown) := by
  by_cases hi : iBit w = 1#1
  · exact .inl ⟨hi, decode_of_iBit hi⟩
  · have hi0 := eq_zero_of_ne_one hi
    by_cases hls : lsClassOf w = 0b01#2
    · exact .inr (.inl ⟨hi0, hls, decode_of_loadStore hi0 hls⟩)
    · exact .inr (.inr ⟨hi0, hls, decode_of_other hi0 hls⟩)

end Arms

/-! ### No word decodes to a branch (30_encoding.md R80) -/

/-- The operations of checks 3 and 4. -/
def Instr.isBranch : Instr → Bool
  | .b _ => true
  | .bl _ => true
  | _ => false

/-- The operations that check 1 can give, UNKNOWN among them. -/
def Instr.ofCheck1 : Instr → Bool
  | .ldr _ _ _ => false
  | .str _ _ _ => false
  | .b _ => false
  | .bl _ => false
  | _ => true

theorem ofCheck1_decodeShift (w : Word) : (decodeShift w).ofCheck1 = true := by
  unfold decodeShift
  split <;> rfl

theorem ofCheck1_decodeDataProcessing (w : Word) : (decodeDataProcessing w).ofCheck1 = true := by
  unfold decodeDataProcessing
  split
  case h_11 => exact ofCheck1_decodeShift w
  all_goals rfl

theorem Instr.isBranch_of_ofCheck1 {i : Instr} (h : i.ofCheck1 = true) : i.isBranch = false := by
  cases i with
  | b offset => cases h
  | bl offset => cases h
  | _ => rfl

theorem isBranch_decodeLoadStore (w : Word) : (decodeLoadStore w).isBranch = false := by
  unfold decodeLoadStore
  split <;> rfl

theorem isBranch_decode (w : Word) : (decode w).isBranch = false := by
  obtain ⟨-, h⟩ | ⟨-, -, h⟩ | ⟨-, -, h⟩ := decode_cases w
  · rw [h]; exact Instr.isBranch_of_ofCheck1 (ofCheck1_decodeDataProcessing w)
  · rw [h, isBranch_decodeLoadStore]
  · rw [h]; rfl

/-- Only a branch can be ill-formed (30_encoding.md R71). -/
theorem Instr.wellFormed_of_not_isBranch {i : Instr} (h : i.isBranch = false) : i.WellFormed := by
  cases i with
  | b offset => cases h
  | bl offset => cases h
  | _ => rfl

theorem decode_wellFormed (w : Word) : (decode w).WellFormed :=
  Instr.wellFormed_of_not_isBranch (isBranch_decode w)

/-! ### The round trip -/

theorem decode_encodeDpi (opcode : BitVec 4) (rn rd : RegIdx) (imm : BitVec 8) :
    decode (encodeDpi opcode rn rd imm) = decodeDataProcessing (encodeDpi opcode rn rd imm) :=
  decode_of_iBit (iBit_encodeDpi opcode rn rd imm)

theorem decode_encodeShi (shiftType : BitVec 2) (rn rd : RegIdx) (shamt : BitVec 5) :
    decode (encodeShi shiftType rn rd shamt) = decodeShift (encodeShi shiftType rn rd shamt) :=
  (decode_of_iBit (iBit_encodeShi shiftType rn rd shamt)).trans
    (decodeDataProcessing_shift (opcodeOf_encodeShi shiftType rn rd shamt))

theorem decode_encodeLs (l : BitVec 1) (rn rd : RegIdx) (offset : BitVec 12) :
    decode (encodeLs l rn rd offset) = decodeLoadStore (encodeLs l rn rd offset) :=
  decode_of_loadStore (iBit_encodeLs l rn rd offset) (lsClassOf_encodeLs l rn rd offset)

/-- Every operation but a branch is decoded from its encoding: its format's fields come back and its
opcode, shift type or `l_bit` picks its arm. -/
theorem decode_encode {i : Instr} (h : i.isBranch = false) : decode (encode i) = i := by
  cases i with
  | mov rd imm =>
    rw [encode, decode_encodeDpi, decodeDataProcessing_mov (opcodeOf_encodeDpi ..), rdOf_encodeDpi,
      immOf_encodeDpi]
  | add rd rn imm =>
    rw [encode, decode_encodeDpi, decodeDataProcessing_add (opcodeOf_encodeDpi ..), rdOf_encodeDpi,
      rnOf_encodeDpi, immOf_encodeDpi]
  | sub rd rn imm =>
    rw [encode, decode_encodeDpi, decodeDataProcessing_sub (opcodeOf_encodeDpi ..), rdOf_encodeDpi,
      rnOf_encodeDpi, immOf_encodeDpi]
  | cmp rn imm =>
    rw [encode, decode_encodeDpi, decodeDataProcessing_cmp (opcodeOf_encodeDpi ..), rnOf_encodeDpi,
      immOf_encodeDpi]
  | and rd rn imm =>
    rw [encode, decode_encodeDpi, decodeDataProcessing_and (opcodeOf_encodeDpi ..), rdOf_encodeDpi,
      rnOf_encodeDpi, immOf_encodeDpi]
  | or rd rn imm =>
    rw [encode, decode_encodeDpi, decodeDataProcessing_or (opcodeOf_encodeDpi ..), rdOf_encodeDpi,
      rnOf_encodeDpi, immOf_encodeDpi]
  | xor rd rn imm =>
    rw [encode, decode_encodeDpi, decodeDataProcessing_xor (opcodeOf_encodeDpi ..), rdOf_encodeDpi,
      rnOf_encodeDpi, immOf_encodeDpi]
  | mul rd rn imm =>
    rw [encode, decode_encodeDpi, decodeDataProcessing_mul (opcodeOf_encodeDpi ..), rdOf_encodeDpi,
      rnOf_encodeDpi, immOf_encodeDpi]
  | mvn rd imm =>
    rw [encode, decode_encodeDpi, decodeDataProcessing_mvn (opcodeOf_encodeDpi ..), rdOf_encodeDpi,
      immOf_encodeDpi]
  | tst rn imm =>
    rw [encode, decode_encodeDpi, decodeDataProcessing_tst (opcodeOf_encodeDpi ..), rnOf_encodeDpi,
      immOf_encodeDpi]
  | lsl rd rn shamt =>
    rw [encode, decode_encodeShi, decodeShift_lsl (shiftTypeOf_encodeShi ..), rdOf_encodeShi,
      rnOf_encodeShi, shamtOf_encodeShi]
  | lsr rd rn shamt =>
    rw [encode, decode_encodeShi, decodeShift_lsr (shiftTypeOf_encodeShi ..), rdOf_encodeShi,
      rnOf_encodeShi, shamtOf_encodeShi]
  | ldr rd rn offset =>
    rw [encode, decode_encodeLs, decodeLoadStore_ldr (lBit_encodeLs ..), rdOf_encodeLs,
      rnOf_encodeLs, lsOffsetOf_encodeLs]
  | str rd rn offset =>
    rw [encode, decode_encodeLs, decodeLoadStore_str (lBit_encodeLs ..), rdOf_encodeLs,
      rnOf_encodeLs, lsOffsetOf_encodeLs]
  | b offset => cases h
  | bl offset => cases h
  | unknown => exact decode_of_other (w := 0#32) rfl (by decide)

/-- The bytes of a word decode as the word, with nothing left over. -/
theorem decodeBytes_wordBytes (w : Word) : decodeBytes (wordBytes w) = .ok (decode w, []) := by
  rw [wordBytes, decodeBytes, wordOfBytes_wordByte]

theorem tableWord_toNat (w : Word) : tableWord 32 w.toNat = w := by
  rw [tableWord, Nat.mod_eq_of_lt w.isLt, BitVec.ofNat_toNat, BitVec.setWidth_eq]

theorem decodeTableWord_toNat (w : Word) : decodeTableWord 32 w.toNat = some (decode w) := by
  rw [decodeTableWord, tableWord_toNat, decodeBytes_wordBytes]

/-! ### The words that are UNKNOWN -/

theorem decodeShift_eq_unknown_iff (w : Word) :
    decodeShift w = .unknown ↔ shiftTypeOf w ∈ [0b10#2, 0b11#2] := by
  unfold decodeShift
  split
  case h_1 h => rw [h]; exact iff_of_false Instr.noConfusion (by decide)
  case h_2 h => rw [h]; exact iff_of_false Instr.noConfusion (by decide)
  case h_3 h0 h1 =>
    refine iff_of_true rfl ?_
    generalize shiftTypeOf w = o at *
    revert o
    decide

/-- An unlisted opcode, or an unlisted type in the shift group (30_encoding.md R82). -/
theorem decodeDataProcessing_eq_unknown_iff (w : Word) :
    decodeDataProcessing w = .unknown ↔
      opcodeOf w ∈ [0b0101#4, 0b0111#4, 0b1001#4, 0b1011#4, 0b1110#4] ∨
      (opcodeOf w = 0b0011#4 ∧ shiftTypeOf w ∈ [0b10#2, 0b11#2]) := by
  unfold decodeDataProcessing
  -- The eleventh arm is the shift group, the twelfth the five unlisted opcodes.
  split
  case h_11 h => rw [decodeShift_eq_unknown_iff, h]; simp
  case h_12 =>
    refine iff_of_true rfl (.inl ?_)
    generalize opcodeOf w = o at *
    revert o
    decide
  all_goals next h => rw [h]; exact iff_of_false Instr.noConfusion (by simp)

theorem decodeLoadStore_ne_unknown (w : Word) : decodeLoadStore w ≠ .unknown := by
  unfold decodeLoadStore
  split <;> exact Instr.noConfusion

theorem lsClassOf_ne_iff (w : Word) :
    lsClassOf w ≠ 0b01#2 ↔ lsClassOf w ∈ [0b00#2, 0b10#2, 0b11#2] := by
  generalize lsClassOf w = c
  revert c
  decide

/-- The three regions of R82, in the fields of the decoder. -/
theorem decode_eq_unknown_iff (w : Word) : decode w = .unknown ↔
    (iBit w = 1#1 ∧ opcodeOf w ∈ [0b0101#4, 0b0111#4, 0b1001#4, 0b1011#4, 0b1110#4]) ∨
    (iBit w = 1#1 ∧ opcodeOf w = 0b0011#4 ∧ shiftTypeOf w ∈ [0b10#2, 0b11#2]) ∨
    (iBit w = 0#1 ∧ lsClassOf w ∈ [0b00#2, 0b10#2, 0b11#2]) := by
  have h10 : (1#1 : BitVec 1) ≠ 0#1 := by decide
  rw [← lsClassOf_ne_iff]
  obtain ⟨hi, h⟩ | ⟨hi, hls, h⟩ | ⟨hi, hls, h⟩ := decode_cases w
  · rw [h, hi, decodeDataProcessing_eq_unknown_iff]
    simp only [true_and, h10, false_and, or_false]
  · rw [h, hi, hls]
    simp only [decodeLoadStore_ne_unknown, h10.symm, false_and, ne_eq, not_true, and_false,
      or_false]
  · rw [h, hi]
    exact iff_of_true rfl (.inr (.inr ⟨rfl, hls⟩))

/-! ### The unexamined bits -/

/-- Two words that agree under a mask agree on every field that the mask covers. -/
theorem field_congr {w w' mask : Word} (h : w &&& mask = w' &&& mask) (lo n : Nat)
    (hm : mask.extractLsb' lo n = BitVec.allOnes n) : w'.extractLsb' lo n = w.extractLsb' lo n :=
  (extractLsb'_of_mask h.symm lo n hm).trans (extractLsb'_of_mask rfl lo n hm).symm

section Fields
variable {w w' : Word}

/-- Outside the shift group check 1 reads the opcode, two registers and the immediate. -/
theorem decodeDataProcessing_congr_of_ne_shift (hne : opcodeOf w ≠ 0b0011#4)
    (hopcode : opcodeOf w' = opcodeOf w) (hrn : rnOf w' = rnOf w) (hrd : rdOf w' = rdOf w)
    (himm : immOf w' = immOf w) : decodeDataProcessing w' = decodeDataProcessing w := by
  simp only [decodeDataProcessing, hopcode, hrn, hrd, himm]
  split
  case h_11 h => exact absurd h hne
  all_goals rfl

theorem decodeShift_congr (hrn : rnOf w' = rnOf w) (hrd : rdOf w' = rdOf w)
    (hshamt : shamtOf w' = shamtOf w) (htype : shiftTypeOf w' = shiftTypeOf w) :
    decodeShift w' = decodeShift w := by
  simp only [decodeShift, hrn, hrd, hshamt, htype]

theorem decodeLoadStore_congr (hl : lBit w' = lBit w) (hrn : rnOf w' = rnOf w)
    (hrd : rdOf w' = rdOf w) (hoffset : lsOffsetOf w' = lsOffsetOf w) :
    decodeLoadStore w' = decodeLoadStore w := by
  simp only [decodeLoadStore, hl, hrn, hrd, hoffset]

/-- MOV and MVN have no `rn` (30_encoding.md R74). -/
theorem decodeDataProcessing_congr_mov_mvn (hw : opcodeOf w &&& 0b1101#4 = 0b1101#4)
    (hopcode : opcodeOf w' = opcodeOf w) (hrd : rdOf w' = rdOf w) (himm : immOf w' = immOf w) :
    decodeDataProcessing w' = decodeDataProcessing w := by
  have hcases : ∀ o : BitVec 4, o &&& 0b1101#4 = 0b1101#4 → o = 0b1101#4 ∨ o = 0b1111#4 := by decide
  obtain h | h := hcases _ hw
  · rw [decodeDataProcessing_mov h, decodeDataProcessing_mov (hopcode.trans h), hrd, himm]
  · rw [decodeDataProcessing_mvn h, decodeDataProcessing_mvn (hopcode.trans h), hrd, himm]

/-- CMP and TST have no `rd` (30_encoding.md R74). -/
theorem decodeDataProcessing_congr_cmp_tst (hw : opcodeOf w &&& 0b1101#4 = 0b1000#4)
    (hopcode : opcodeOf w' = opcodeOf w) (hrn : rnOf w' = rnOf w) (himm : immOf w' = immOf w) :
    decodeDataProcessing w' = decodeDataProcessing w := by
  have hcases : ∀ o : BitVec 4, o &&& 0b1101#4 = 0b1000#4 → o = 0b1010#4 ∨ o = 0b1000#4 := by decide
  obtain h | h := hcases _ hw
  · rw [decodeDataProcessing_cmp h, decodeDataProcessing_cmp (hopcode.trans h), hrn, himm]
  · rw [decodeDataProcessing_tst h, decodeDataProcessing_tst (hopcode.trans h), hrn, himm]

end Fields

/-! ### The obligations -/

/-- Settles O50: as words by `decode_encode`; the bytes of a word put together again are the word.
-/
theorem decodeEncodeRoundTrip : Obligations.DecodeEncodeRoundTrip := by
  intro i hb hbl
  have hi : i.isBranch = false := by
    cases i with
    | b offset => exact absurd rfl (hb offset)
    | bl offset => exact absurd rfl (hbl offset)
    | _ => rfl
  have hword := decode_encode hi
  refine ⟨hword, ?_, ?_⟩
  · rw [encodeBytes, decodeBytes_wordBytes, hword]
  · rw [decodeTableWord_toNat, hword]

/-- Settles O46: check 1 takes every word of the two branch patterns. -/
theorem decodeNeverReturnsBranch : Obligations.DecodeNeverReturnsBranch := by
  intro w offset
  have hw := isBranch_decode w
  constructor
  · intro h
    rw [h] at hw
    cases hw
  · intro h
    rw [h] at hw
    cases hw

/-- Settles O47: the three regions are stated in the fields that the decoder extracts. -/
theorem unknownWordsExactly : Obligations.UnknownWordsExactly := decode_eq_unknown_iff

/-- Settles O49: no word decodes to a branch, and no other operation can be ill-formed. -/
theorem decodeIsWellFormed : Obligations.DecodeIsWellFormed := decode_wellFormed

/-- Settles O48, by the format of the first word: its mask covers every field that the format's arm
of the decoder reads, and the fields that pick the arm. -/
theorem unexaminedBitsIgnored : Obligations.UnexaminedBitsIgnored := by
  intro w w' h
  simp only [Machine.examinedBits, iBit_masked_iff, opcode_masked_iff, lsClass_masked_iff] at h
  split_ifs at h with hi hop hmov hcmp hls
  · rw [decode_of_iBit hi, decode_of_iBit ((field_congr h 25 1 rfl).trans hi),
      decodeDataProcessing_shift hop,
      decodeDataProcessing_shift ((field_congr h 21 4 rfl).trans hop)]
    exact decodeShift_congr (field_congr h 16 4 rfl) (field_congr h 12 4 rfl)
      (field_congr h 7 5 rfl) (field_congr h 5 2 rfl)
  · rw [decode_of_iBit hi, decode_of_iBit ((field_congr h 25 1 rfl).trans hi)]
    exact decodeDataProcessing_congr_mov_mvn (opcode_and_of_masked hmov) (field_congr h 21 4 rfl)
      (field_congr h 12 4 rfl) (field_congr h 0 8 rfl)
  · rw [decode_of_iBit hi, decode_of_iBit ((field_congr h 25 1 rfl).trans hi)]
    exact decodeDataProcessing_congr_cmp_tst (opcode_and_of_masked hcmp) (field_congr h 21 4 rfl)
      (field_congr h 16 4 rfl) (field_congr h 0 8 rfl)
  · rw [decode_of_iBit hi, decode_of_iBit ((field_congr h 25 1 rfl).trans hi)]
    exact decodeDataProcessing_congr_of_ne_shift hop (field_congr h 21 4 rfl)
      (field_congr h 16 4 rfl) (field_congr h 12 4 rfl) (field_congr h 0 8 rfl)
  · have hi : iBit w = 0#1 := eq_zero_of_ne_one hi
    rw [decode_of_loadStore hi hls, decode_of_loadStore ((field_congr h 25 1 rfl).trans hi)
      ((field_congr h 26 2 rfl).trans hls)]
    exact decodeLoadStore_congr (field_congr h 20 1 rfl) (field_congr h 16 4 rfl)
      (field_congr h 12 4 rfl) (field_congr h 0 12 rfl)
  · have hi : iBit w = 0#1 := eq_zero_of_ne_one hi
    have hls' : lsClassOf w' ≠ 0b01#2 := fun e => hls ((field_congr h 26 2 rfl).symm.trans e)
    rw [decode_of_other hi hls, decode_of_other ((field_congr h 25 1 rfl).trans hi) hls']

/-- Settles O45: seven words, evaluated. -/
theorem sampleWordsDecode : Obligations.SampleWordsDecode := by
  unfold Obligations.SampleWordsDecode
  decide

end Sys2Proof
end

section
/-! PROOFS. What a step can do, said once (40_fetch_and_step.md R100), and the statements that
follow: the step and its trace record, the terminal states, the next fetch address, the flags, the
memory and the parameters under a step, and the invariant of the block. -/

namespace Sys2Proof.Machine

/-! ### Everything a step can do -/

/-- The states a step can answer: the old one in a terminal state, a fetch fault, a fault of a load
or store in the state after line 3, or the operation followed by the advance and the halt test. -/
inductive StepTo (s : State) : State → Prop
  | halted (hrun : s.run ≠ .running) : StepTo s s
  | fetchFault (hrun : s.run = .running) (hlt : s.memCapacity < s.fpc.toNat + 4) :
      StepTo s (takeFault (.memOutOfBounds s.fpc.toNat) s)
  | execFault {addr : Nat} (hrun : s.run = .running) (hlt : s.memCapacity < addr + 4) :
      StepTo s (takeFault (.memOutOfBounds addr) (loadPc s))
  | done {w : Word} {u : State} (hrun : s.run = .running) (hfetch : fetch s = .ok w)
      (hexec : exec (decode w) (loadPc s) = .next u) :
      StepTo s (haltTest (decode w) (advance u))

theorem fetch_error_cases {s : State} {kind : Fault} (h : fetch s = .error kind) :
    s.memCapacity < s.fpc.toNat + 4 ∧ kind = .memOutOfBounds s.fpc.toNat := by
  rw [fetch, memRead_eq] at h
  split at h
  case isTrue => cases h
  case isFalse hgt => exact ⟨Nat.not_le.1 hgt, (Except.error.inj h).symm⟩

theorem stepTo_of_step {s t : State} (h : step s = .next t) : StepTo s t := by
  obtain ⟨hrun, rfl⟩ | ⟨hrun, kind, hfetch, rfl⟩ | ⟨hrun, w, hfetch, hop⟩ := step_cases h
  · exact .halted hrun
  · obtain ⟨hlt, rfl⟩ := fetch_error_cases hfetch
    exact .fetchFault hrun hlt
  · obtain ⟨u, hexec, rfl⟩ | ⟨kind, hexec, rfl⟩ := runOperation_cases hop
    · exact .done hrun hfetch hexec
    · obtain ⟨rd, rn, offset, -, rfl, hlt⟩ := exec_fault_cases hexec
      exact .execFault hrun hlt

/-- An operation at `fpc` is never refused. -/
theorem runOperation_total (op : Instr) (s : State) : ∃ t, runOperation op s = .next t := by
  unfold runOperation
  cases h : exec op (loadPc s) with
  | next u => exact ⟨_, rfl⟩
  | fault kind => exact ⟨_, rfl⟩
  | refused r => exact absurd h (exec_ne_refused r)

theorem step_total (s : State) : ∃ t, step s = .next t := by
  by_cases hrun : s.run = .running
  · rw [step_of_running hrun, runStep]
    cases fetch s with
    | ok w => exact runOperation_total (decode w) s
    | error kind => exact ⟨_, rfl⟩
  · exact ⟨s, step_of_halted hrun⟩

theorem run_succ_of_step {s t : State} (h : step s = .next t) (n : Nat) :
    Sys2Proof.core.run (n + 1) s = Sys2Proof.core.run n t := by
  have hcore : Sys2Proof.core.step s = .next t := h
  simp only [Host.Core.run, hcore]

/-- What holds of a state and is kept by every step holds after any number of steps. -/
theorem run_keeps {P : State → Prop} (hstep : ∀ s t, P s → step s = .next t → P t) (n : Nat)
    {s : State} (hs : P s) : ∃ t, Sys2Proof.core.run n s = .next t ∧ P t := by
  induction n generalizing s with
  | zero => exact ⟨s, rfl, hs⟩
  | succ n ih =>
    obtain ⟨t, ht⟩ := step_total s
    rw [run_succ_of_step ht]
    exact ih (hstep s t hs ht)

/-! ### The parts of a step -/

@[simp] theorem haltTest_flags (op : Instr) (s : State) : (haltTest op s).flags = s.flags := by
  rw [haltTest_eq, setRun_flags]
@[simp] theorem haltTest_mem (op : Instr) (s : State) : (haltTest op s).mem = s.mem := by
  rw [haltTest_eq, setRun_mem]
@[simp] theorem haltTest_memCapacity (op : Instr) (s : State) :
    (haltTest op s).memCapacity = s.memCapacity := by
  rw [haltTest_eq, setRun_memCapacity]
@[simp] theorem haltTest_imageLen (op : Instr) (s : State) :
    (haltTest op s).imageLen = s.imageLen := by
  rw [haltTest_eq, setRun_imageLen]

/-- The advance and the halt test of a running block as one update (40_fetch_and_step.md R104,
R105). -/
theorem haltTest_advance {op : Instr} {u : State} (hrun : u.run = .running) :
    haltTest op (advance u) =
      { u with
        fpc := getReg 15#4 u + 4#32
        run := if op = .unknown then .haltedUnknown
          else if u.imageLen ≤ (getReg 15#4 u + 4#32).toNat then .haltedNormal
          else .running } := by
  rw [haltTest_eq, advance_run, advance_imageLen, advance_fpc, hrun]
  exact congrArg (setRun _) (congrArg (setFpc · u) (advance_fpc u))

/-- The halt test makes no fault. -/
theorem haltTest_run_ne_faulted (op : Instr) {s : State} (hrun : s.run = .running) (kind : Fault) :
    (haltTest op s).run ≠ .faulted kind := by
  rw [haltTest_run, hrun]
  split_ifs <;> exact RunState.noConfusion

/-- After the halt test a RUNNING block is about to fetch inside its image. -/
theorem fpc_lt_of_haltTest_running {op : Instr} {s : State} (h : (haltTest op s).run = .running) :
    s.fpc.toNat < s.imageLen := by
  rw [haltTest_run] at h
  split_ifs at h with hop hle
  exact Nat.not_le.1 hle

/-- What the operation of a step leaves of the fetch unit's state (40_fetch_and_step.md R103). -/
theorem exec_loadPc_controlKept {i : Instr} {s u : State} (h : exec i (loadPc s) = .next u) :
    ControlKept s u :=
  (controlKept_setReg Config.pcIndex s.fpc s).trans (exec_controlKept h)

theorem setFlags_haltTest (f : Flags) (op : Instr) (s : State) :
    setFlags f (haltTest op s) = haltTest op (setFlags f s) := by
  rw [haltTest_eq, haltTest_eq]
  rfl

theorem step_carryOverflowKept {s t : State} (h : step s = .next t) :
    t.flags.c = s.flags.c ∧ t.flags.v = s.flags.v := by
  cases stepTo_of_step h with
  | halted => exact ⟨rfl, rfl⟩
  | fetchFault => exact ⟨rfl, rfl⟩
  | execFault => exact ⟨rfl, rfl⟩
  | done _ _ hexec =>
    rw [haltTest_flags, advance_flags]
    exact (effect_of_exec hexec).carryOverflowKept

/-! ### The trace record -/

theorem traceRecord_of_fetch {s : State} {w : Word} (hrun : s.run = .running)
    (hfetch : fetch s = .ok w) :
    traceRecord s = some { addr := s.fpc, op := decode w } := by
  unfold traceRecord
  rw [hrun, hfetch]

theorem traceRecord_of_fetch_error {s : State} {kind : Fault} (hfetch : fetch s = .error kind) :
    traceRecord s = none := by
  unfold traceRecord
  rw [hfetch]
  cases s.run <;> rfl

theorem traceRecord_of_halted {s : State} (hrun : s.run ≠ .running) : traceRecord s = none := by
  unfold traceRecord
  split
  · next h => exact absurd h hrun
  · rfl
  · rfl
  · rfl

/-! ### The invariant under a step -/

section Invariant
variable {s u : State}

/-- The flags of a result are never both 1 (41_data_processing.md R120). -/
theorem flagsAfter_not_both (r : Word) (f : Flags) :
    ¬ ((flagsAfter r f).n = true ∧ (flagsAfter r f).z = true) := by
  rintro ⟨hn, hz⟩
  obtain rfl : r = 0#32 := beq_iff_eq.1 hz
  exact Bool.false_ne_true hn

theorem Effect.memWf {i : Instr} (h : Effect i s u) (hs : s.mem.wf = true) : u.mem.wf = true := by
  obtain hm | ⟨rd, rn, offset, -, -, hm⟩ := h.mem
  · rw [hm]; exact hs
  · rw [hm]; exact Memory.wf_writeWord hs _ _

theorem Effect.memBelow {i : Instr} (h : Effect i s u) (hs : ∀ c ∈ s.mem, c.1 < s.memCapacity) :
    ∀ c ∈ u.mem, c.1 < s.memCapacity := by
  obtain hm | ⟨rd, rn, offset, -, hle, hm⟩ := h.mem
  · rw [hm]; exact hs
  · rw [hm]; exact Memory.below_writeBytes hs hle

theorem Effect.notBothNZ {i : Instr} (h : Effect i s u)
    (hs : ¬ (s.flags.n = true ∧ s.flags.z = true)) : ¬ (u.flags.n = true ∧ u.flags.z = true) := by
  obtain hf | ⟨r, hf⟩ := h.flags
  · rw [hf]; exact hs
  · rw [hf]; exact flagsAfter_not_both r s.flags

/-- A running block that meets the invariant has an image that fits. -/
theorem State.Inv.imageFits_of_running (hs : s.Inv) (hrun : s.run = .running) :
    s.imageLen ≤ s.memCapacity :=
  hs.imageFits.resolve_right (by rw [hrun]; exact RunState.noConfusion)

/-- Line 3 of the step writes no part of the state that the invariant speaks of. -/
theorem State.Inv.loadPc (hs : s.Inv) : (loadPc s).Inv :=
  { memWf := hs.memWf
    memBelow := hs.memBelow
    capacityLe := hs.capacityLe
    fpcInImage := hs.fpcInImage
    imageFits := hs.imageFits
    carryClear := hs.carryClear
    overflowClear := hs.overflowClear
    notBothNZ := hs.notBothNZ
    faultOutside := hs.faultOutside
    noIndexFault := hs.noIndexFault }

/-- Taking an address fault of a running block keeps the invariant: the address recorded is the one
that was out of bounds. -/
theorem State.Inv.takeFault (hs : s.Inv) (hrun : s.run = .running) {addr : Nat}
    (hlt : s.memCapacity < addr + 4) : (takeFault (.memOutOfBounds addr) s).Inv :=
  { memWf := hs.memWf
    memBelow := hs.memBelow
    capacityLe := hs.capacityLe
    fpcInImage := RunState.noConfusion
    imageFits := .inl (hs.imageFits_of_running hrun)
    carryClear := hs.carryClear
    overflowClear := hs.overflowClear
    notBothNZ := hs.notBothNZ
    faultOutside := fun a ha => by
      obtain rfl : addr = a := Fault.memOutOfBounds.inj (RunState.faulted.inj ha)
      exact hlt
    noIndexFault := fun _ h => Fault.noConfusion (RunState.faulted.inj h) }

/-- An operation of a running block that completes, with the advance and the halt test, keeps the
invariant. -/
theorem State.Inv.done {op : Instr} (hs : s.Inv) (hrun : s.run = .running)
    (h : exec op s = .next u) : (haltTest op (advance u)).Inv := by
  have heffect := effect_of_exec h
  obtain ⟨hc, hv⟩ := heffect.carryOverflowKept
  obtain ⟨-, hrunKept, hcap, hlen⟩ := exec_controlKept h
  have hrun' : (advance u).run = .running := hrunKept.trans hrun
  exact
    { memWf := by rw [haltTest_mem]; exact heffect.memWf hs.memWf
      memBelow := by
        rw [haltTest_mem, haltTest_memCapacity, advance_memCapacity, hcap]
        exact heffect.memBelow hs.memBelow
      capacityLe := by
        rw [haltTest_memCapacity, advance_memCapacity, hcap]
        exact hs.capacityLe
      fpcInImage := fun hr => by
        rw [haltTest_fpc, haltTest_imageLen]
        exact fpc_lt_of_haltTest_running hr
      imageFits := by
        rw [haltTest_imageLen, haltTest_memCapacity, advance_imageLen, advance_memCapacity, hlen,
          hcap]
        exact .inl (hs.imageFits_of_running hrun)
      carryClear := by rw [haltTest_flags]; exact hc.trans hs.carryClear
      overflowClear := by rw [haltTest_flags]; exact hv.trans hs.overflowClear
      notBothNZ := by rw [haltTest_flags]; exact heffect.notBothNZ hs.notBothNZ
      faultOutside := fun _ hr => absurd hr (haltTest_run_ne_faulted op hrun' _)
      noIndexFault := fun _ => haltTest_run_ne_faulted op hrun' _ }

end Invariant

/-! ### The obligations -/

/-- Settles O57: each of the four ways a step can end keeps the invariant. -/
theorem stepKeepsInvariant : Obligations.StepKeepsInvariant := by
  intro s t hs h
  cases stepTo_of_step h with
  | halted => exact hs
  | fetchFault hrun hlt => exact hs.takeFault hrun hlt
  | execFault hrun hlt => exact hs.loadPc.takeFault hrun hlt
  | done hrun _ hexec => exact hs.loadPc.done hrun hexec

/-- Settles O6: no operation is refused and a fault is taken into `run`. -/
theorem stepIsTotal : Obligations.StepIsTotal := step_total

/-- Settles O3, by induction on the number of steps. -/
theorem terminalStatesAbsorb : Obligations.TerminalStatesAbsorb := by
  intro s n hrun
  have hcycle : cycle s = .next s := step_of_halted hrun
  induction n with
  | zero => exact ⟨rfl, rfl⟩
  | succ n ih =>
    obtain ⟨hlast, htrace⟩ := ih
    rw [run_succ_of_step hcycle, observe, hcycle, traceRecord_of_halted hrun]
    exact ⟨hlast, by simp only [htrace, Option.toList_none, List.nil_append]⟩

/-- Settles O37: no unit, no fault and no halt test writes a parameter. -/
theorem parametersNeverChange : Obligations.ParametersNeverChange := by
  intro s t h
  cases stepTo_of_step h with
  | halted => exact ⟨rfl, rfl⟩
  | fetchFault => exact ⟨rfl, rfl⟩
  | execFault => exact ⟨rfl, rfl⟩
  | done _ _ hexec =>
    obtain ⟨-, -, hcap, hlen⟩ := exec_loadPc_controlKept hexec
    exact ⟨(haltTest_memCapacity ..).trans hcap, (haltTest_imageLen ..).trans hlen⟩

/-- Settles O31: no step writes C or V, and they are 0 at reset. -/
theorem carryAndOverflowNeverWritten : Obligations.CarryAndOverflowNeverWritten := by
  refine ⟨fun s t => step_carryOverflowKept, fun cap image n => ?_⟩
  refine run_keeps (P := fun s => s.flags.c = false ∧ s.flags.v = false) ?_ n ⟨rfl, rfl⟩
  rintro s t ⟨hc, hv⟩ h
  obtain ⟨hc', hv'⟩ := step_carryOverflowKept h
  exact ⟨hc'.trans hc, hv'.trans hv⟩

/-- Settles O32: fetch, execute, advance and halt test each do the same with other flags. -/
theorem noStepReadsFlags : Obligations.NoStepReadsFlags := by
  intro s t f h
  obtain ⟨hrun, rfl⟩ | ⟨hrun, kind, hfetch, rfl⟩ | ⟨hrun, w, hfetch, hop⟩ := step_cases h
  · exact ⟨setFlags f t, step_of_halted hrun, rfl⟩
  · have hfetch' : fetch (setFlags f s) = .error kind := hfetch
    refine ⟨takeFault kind (setFlags f s), ?_, rfl⟩
    rw [step_of_running (s := setFlags f s) hrun, runStep, hfetch']
  · have hfetch' : fetch (setFlags f s) = .ok w := hfetch
    rw [step_of_running (s := setFlags f s) hrun, runStep, hfetch']
    obtain ⟨u, hexec, rfl⟩ | ⟨kind, hexec, rfl⟩ := runOperation_cases hop
    · obtain ⟨u', hexec', hu'⟩ := exec_setFlags f hexec
      refine ⟨_, runOperation_of_exec_next (s := setFlags f s) hexec', ?_⟩
      rw [haltTest_flags, setFlags_haltTest]
      exact congrArg (fun v => haltTest (decode w) (advance v)) hu'
    · have hexec' : exec (decode w) (loadPc (setFlags f s)) = .fault kind :=
        exec_fault_of_readsAlike (s := loadPc s) (s' := loadPc (setFlags f s))
          { regs := fun _ _ => rfl, mem := rfl, memCapacity := rfl } hexec
      refine ⟨takeFault kind (loadPc (setFlags f s)), ?_, rfl⟩
      simp only [runOperation, hexec']

/-- Settles O5: a step that does not fault ends in the advance, and no operation writes a register
outside its list. -/
theorem nextFetchAddress : Obligations.NextFetchAddress := by
  intro s t w hrun hfetch h hnofault
  cases stepTo_of_step h with
  | halted hne => exact absurd hrun hne
  | fetchFault => exact absurd ⟨_, rfl⟩ hnofault
  | execFault => exact absurd ⟨_, rfl⟩ hnofault
  | @done w' u _ hfetch' hexec =>
    obtain rfl : w = w' := Except.ok.inj (hfetch.symm.trans hfetch')
    rw [haltTest_fpc, getReg_haltTest, getReg_advance]
    refine ⟨advance_fpc u, fun hpc => ?_⟩
    rw [(effect_of_exec hexec).regsKept _ hpc, getReg_pc_loadPc]

/-- Settles O36: a fault writes no byte, and of the operations only STR writes four. -/
theorem onlyStoreChangesMemory : Obligations.OnlyStoreChangesMemory := by
  intro s t a hs h hne
  cases stepTo_of_step h with
  | halted => exact absurd rfl hne
  | fetchFault => exact absurd rfl hne
  | execFault => exact absurd rfl hne
  | @done w u _ hfetch hexec =>
    rw [haltTest_mem, advance_mem] at hne
    obtain hm | ⟨rd, rn, offset, hop, -, hm⟩ := (effect_of_exec hexec).mem
    · rw [hm] at hne
      exact absurd rfl hne
    · refine ⟨w, rd, rn, offset, hfetch, hop, ?_⟩
      by_contra hout
      rw [hm] at hne
      exact hne (Memory.readByte_writeWord_outside hs _
        ((not_and_or.1 hout).imp Nat.not_le.1 Nat.not_lt.1))

/-- Settles O38: the word stored in bounds reads back, and it is what the next step decodes. -/
theorem storeIsSeenByNextFetch : Obligations.StoreIsSeenByNextFetch := by
  intro s t w rd rn offset hs hrun hfetch hop h hrun' haddr
  have hread : memRead t.fpc.toNat t = .ok (getReg rd (setReg 15#4 s.fpc s)) := by
    cases stepTo_of_step h with
    | halted hne => exact absurd hrun hne
    | fetchFault => cases hrun'
    | execFault => cases hrun'
    | @done w' u _ hfetch' hexec =>
      obtain rfl : w = w' := Except.ok.inj (hfetch.symm.trans hfetch')
      rw [hop, exec_str, execStr_eq] at hexec
      split at hexec
      case isFalse => cases hexec
      case isTrue hle =>
        cases hexec
        rw [haddr, memRead_ok_iff, haltTest_mem, haltTest_memCapacity]
        exact ⟨hle, (Memory.readWord_writeWord hs _ _).symm⟩
  exact ⟨hread, traceRecord_of_fetch hrun' hread⟩

/-- Settles O1: the lines of the step in their order; only the arm of a completed operation needs
that `run` is still RUNNING. -/
theorem stepRunsDecodedInstruction : Obligations.StepRunsDecodedInstruction := by
  intro s w hrun hfetch
  refine ⟨decode_wellFormed w, traceRecord_of_fetch hrun hfetch, ?_⟩
  have hstep : step s = runOperation (decode w) s := by
    rw [step_of_running hrun, runStep, fetch, hfetch]
  rw [hstep, runOperation, loadPc]
  cases hexec : exec (decode w) (setReg 15#4 s.fpc s) with
  | next u =>
    obtain ⟨-, hrunKept, -⟩ := exec_controlKept hexec
    exact congrArg Host.Outcome.next (haltTest_advance (hrunKept.trans hrun))
  | fault kind => rfl
  | refused r => rfl

/-- Settles O2: the fetch is the first line that can stop the step. -/
theorem fetchOutOfBoundsFaults : Obligations.FetchOutOfBoundsFaults := by
  intro s hrun hlt
  have hfetch : fetch s = .error (.memOutOfBounds s.fpc.toNat) := memRead_of_lt hlt
  refine ⟨?_, traceRecord_of_fetch_error hfetch⟩
  rw [step_of_running hrun, runStep, hfetch]
  rfl

/-- Settles O29: UNKNOWN leaves the state of line 3, and the halt test ends the run on it. -/
theorem unknownHaltsRun : Obligations.UnknownHaltsRun := by
  refine ⟨exec_unknown, fun s w hrun hfetch hop => ?_⟩
  have hexec : exec (decode w) (loadPc s) = .next (loadPc s) := by rw [hop, exec_unknown]
  have htrace := traceRecord_of_fetch hrun hfetch
  rw [step_of_exec_next hrun hfetch hexec, hop, haltTest_advance (u := loadPc s) hrun]
  rw [hop] at htrace
  have hpc : getReg 15#4 (loadPc s) = s.fpc := getReg_pc_loadPc s
  rw [hpc, if_pos rfl]
  exact ⟨rfl, htrace⟩

end Sys2Proof.Machine
end

section
/-! PROOFS. The statements about single operations: UpdateFlags (41_data_processing.md R120), ADD,
SUB, AND, OR, XOR and MUL (R123 to R129), LSR (42_shifts.md R141), LDR and STR (43_load_store.md
R151, R152), B and BL (44_branch.md R160, R161). -/

namespace Sys2Proof

/-! ### The words of an operation -/

section Words
variable (w : Word) (rd rn : RegIdx)

section Immediate
variable (imm : BitVec 8)

theorem decode_eq_add_iff : decode w = .add rd rn imm ↔
    w &&& 0x03E00000#32 = 0x02800000#32 ∧ rd = w.extractLsb' 12 4 ∧ rn = w.extractLsb' 16 4 ∧
      imm = w.extractLsb' 0 8 := by
  rw [decode_eq_iff rfl decodeDataProcessing_add, Instr.add.injEq]
  rfl

theorem decode_eq_sub_iff : decode w = .sub rd rn imm ↔
    w &&& 0x03E00000#32 = 0x02400000#32 ∧ rd = w.extractLsb' 12 4 ∧ rn = w.extractLsb' 16 4 ∧
      imm = w.extractLsb' 0 8 := by
  rw [decode_eq_iff rfl decodeDataProcessing_sub, Instr.sub.injEq]
  rfl

theorem decode_eq_and_iff : decode w = .and rd rn imm ↔
    w &&& 0x03E00000#32 = 0x02000000#32 ∧ rd = w.extractLsb' 12 4 ∧ rn = w.extractLsb' 16 4 ∧
      imm = w.extractLsb' 0 8 := by
  rw [decode_eq_iff rfl decodeDataProcessing_and, Instr.and.injEq]
  rfl

theorem decode_eq_or_iff : decode w = .or rd rn imm ↔
    w &&& 0x03E00000#32 = 0x03800000#32 ∧ rd = w.extractLsb' 12 4 ∧ rn = w.extractLsb' 16 4 ∧
      imm = w.extractLsb' 0 8 := by
  rw [decode_eq_iff rfl decodeDataProcessing_or, Instr.or.injEq]
  rfl

theorem decode_eq_xor_iff : decode w = .xor rd rn imm ↔
    w &&& 0x03E00000#32 = 0x02200000#32 ∧ rd = w.extractLsb' 12 4 ∧ rn = w.extractLsb' 16 4 ∧
      imm = w.extractLsb' 0 8 := by
  rw [decode_eq_iff rfl decodeDataProcessing_xor, Instr.xor.injEq]
  rfl

theorem decode_eq_mul_iff : decode w = .mul rd rn imm ↔
    w &&& 0x03E00000#32 = 0x02C00000#32 ∧ rd = w.extractLsb' 12 4 ∧ rn = w.extractLsb' 16 4 ∧
      imm = w.extractLsb' 0 8 := by
  rw [decode_eq_iff rfl decodeDataProcessing_mul, Instr.mul.injEq]
  rfl

end Immediate

/-- Of the shift types only 01 is LSR. -/
theorem lsr_eq_decodeShift_iff (shamt : BitVec 5) : .lsr rd rn shamt = decodeShift w ↔
    shiftTypeOf w = 0b01#2 ∧ rd = rdOf w ∧ rn = rnOf w ∧ shamt = shamtOf w := by
  unfold decodeShift
  split
  case h_1 htype => simp [htype]
  case h_2 htype => simp [htype]
  case h_3 _ hne => exact iff_of_false Instr.noConfusion fun ⟨htype, _⟩ => hne htype

theorem decode_eq_lsr_iff (shamt : BitVec 5) : decode w = .lsr rd rn shamt ↔
    w &&& 0x03E00060#32 = 0x02600020#32 ∧ rd = w.extractLsb' 12 4 ∧ rn = w.extractLsb' 16 4 ∧
      shamt = w.extractLsb' 7 5 := by
  rw [decode_eq_iff rfl decodeDataProcessing_shift, dpi_masked_iff, lsr_eq_decodeShift_iff,
    shi_masked_iff w rfl]
  simp only [and_assoc]
  rfl

/-- The mask of format LS keeps three fields and clears the rest. -/
theorem ls_masked :
    w &&& 0x0E100000#32 = 0#4 ++ lsClassOf w ++ iBit w ++ 0#4 ++ lBit w ++ 0#20 := by
  refine BitVec.eq_of_getLsbD_eq fun k hk => ?_
  simp only [lsClassOf, iBit, lBit, BitVec.getLsbD_and, BitVec.getLsbD_append]
  interval_cases k <;> simp

/-- The mask of format LS compares `ls_class`, `i_bit` and `l_bit` with those of a pattern inside
the mask. -/
theorem ls_masked_iff {pattern : Word} (hp : pattern &&& 0x0E100000#32 = pattern) :
    w &&& 0x0E100000#32 = pattern ↔
      iBit w = iBit pattern ∧ lsClassOf w = lsClassOf pattern ∧ lBit w = lBit pattern := by
  constructor
  · intro h
    exact ⟨extractLsb'_of_mask h 25 1 rfl, extractLsb'_of_mask h 26 2 rfl,
      extractLsb'_of_mask h 20 1 rfl⟩
  · rintro ⟨hi, hls, hl⟩
    calc w &&& 0x0E100000#32
      _ = pattern &&& 0x0E100000#32 := by rw [ls_masked, ls_masked, hi, hls, hl]
      _ = pattern := hp

/-- A word decodes to an operation that check 1 does not give only by check 2. -/
theorem decode_eq_loadStore_iff {i : Instr} (hi : i.ofCheck1 = false) :
    decode w = i ↔ iBit w = 0#1 ∧ lsClassOf w = 0b01#2 ∧ decodeLoadStore w = i := by
  constructor
  · rintro rfl
    obtain ⟨-, h⟩ | ⟨hbit, hls, h⟩ | ⟨-, -, h⟩ := decode_cases w
    · rw [h, ofCheck1_decodeDataProcessing] at hi
      cases hi
    · exact ⟨hbit, hls, h.symm⟩
    · rw [h] at hi
      cases hi
  · rintro ⟨hbit, hls, rfl⟩
    exact decode_of_loadStore hbit hls

section Offset
variable (offset : BitVec 12)

theorem decodeLoadStore_eq_ldr_iff : decodeLoadStore w = .ldr rd rn offset ↔
    lBit w = 1#1 ∧ rd = rdOf w ∧ rn = rnOf w ∧ offset = lsOffsetOf w := by
  unfold decodeLoadStore
  split
  case isTrue hl => simp [hl, eq_comm]
  case isFalse hl => simp [hl]

theorem decodeLoadStore_eq_str_iff : decodeLoadStore w = .str rd rn offset ↔
    lBit w = 0#1 ∧ rd = rdOf w ∧ rn = rnOf w ∧ offset = lsOffsetOf w := by
  unfold decodeLoadStore
  split
  case isTrue hl => simp [hl]
  case isFalse hl => simp [eq_zero_of_ne_one hl, eq_comm]

theorem decode_eq_ldr_iff : decode w = .ldr rd rn offset ↔
    w &&& 0x0E100000#32 = 0x04100000#32 ∧ rd = w.extractLsb' 12 4 ∧ rn = w.extractLsb' 16 4 ∧
      offset = w.extractLsb' 0 12 := by
  rw [decode_eq_loadStore_iff w rfl, decodeLoadStore_eq_ldr_iff, ls_masked_iff w rfl]
  simp only [and_assoc]
  rfl

theorem decode_eq_str_iff : decode w = .str rd rn offset ↔
    w &&& 0x0E100000#32 = 0x04000000#32 ∧ rd = w.extractLsb' 12 4 ∧ rn = w.extractLsb' 16 4 ∧
      offset = w.extractLsb' 0 12 := by
  rw [decode_eq_loadStore_iff w rfl, decodeLoadStore_eq_str_iff, ls_masked_iff w rfl]
  simp only [and_assoc]
  rfl

end Offset
end Words

/-- A branch word holds its byte offset divided by 4 (30_encoding.md R78). -/
theorem toNat_offset_encodeBr (brClass : BitVec 4) (offset : BitVec 26) :
    ((encodeBr brClass offset).extractLsb' 0 24).toNat = offset.toNat / 4 := by
  have hfield : (encodeBr brClass offset).extractLsb' 0 24 = offset.extractLsb' 2 24 := by
    ext k hk
    simp only [encodeBr, BitVec.getElem_extractLsb', BitVec.getLsbD_append]
    simp [hk]
  have hlt := offset.isLt
  rw [hfield, BitVec.extractLsb'_toNat, Nat.shiftRight_eq_div_pow]
  omega

namespace Machine

/-! ### The results -/

theorem toNat_reduce_shiftRight (v : Word) (shamt : BitVec 5) :
    (reduce (v.toNat / 2 ^ shamt.toNat)).toNat = v.toNat / 2 ^ shamt.toNat := by
  have hlt : v.toNat / 2 ^ shamt.toNat < 2 ^ 32 := (Nat.div_le_self _ _).trans_lt v.isLt
  have h := toNat_reduce_natCast (v.toNat / 2 ^ shamt.toNat)
  rw [Nat.mod_eq_of_lt hlt] at h
  exact_mod_cast h

/-- A right shift by 1 or more clears bit 31. -/
theorem toNat_shiftRight_lt (v : Word) {shamt : BitVec 5} (h : shamt ≠ 0#5) :
    v.toNat / 2 ^ shamt.toNat < 2 ^ 31 := by
  have hpos : shamt.toNat ≠ 0 := fun e => h (BitVec.eq_of_toNat_eq e)
  have hv := v.isLt
  calc v.toNat / 2 ^ shamt.toNat
    _ ≤ v.toNat / 2 ^ 1 :=
      Nat.div_le_div_left (Nat.pow_le_pow_right (by omega) (by omega)) (by omega)
    _ < 2 ^ 31 := by omega

/-- A conjunction with a zero-extended immediate has bit 31 clear. -/
theorem toNat_and_immWord_lt (v : Word) (imm : BitVec 8) : (v &&& immWord imm).toNat < 2 ^ 31 := by
  have hle : (v &&& immWord imm).toNat ≤ imm.toNat := by
    rw [BitVec.toNat_and, toNat_immWord]
    exact Nat.and_le_right
  have hlt := imm.isLt
  omega

/-! ### The obligations about results and flags -/

/-- Settles O8: Z asks for the result 0, whose bit 31 is 0. -/
theorem updateFlagsSetsZeroAndNegative : Obligations.UpdateFlagsSetsZeroAndNegative := fun r s =>
  ⟨onlyFlagsSet_updateFlags r s, flagsAfter_not_both r s.flags⟩

/-- Settles O10: ADD ends in the result that reduces the sum. -/
theorem addWritesSum : Obligations.AddWritesSum := by
  refine ⟨decode_eq_add_iff, fun rd rn imm s =>
    ⟨_, _, exec_add rd rn imm s, ?_, resultWritten_writeResult rd _ s⟩⟩
  rw [toNat_immWord]
  exact_mod_cast toNat_reduce_natCast ((getReg rn s).toNat + imm.toNat)

/-- Settles O11: SUB ends in the result that reduces the difference as an integer. -/
theorem subWritesDifference : Obligations.SubWritesDifference := by
  refine ⟨decode_eq_sub_iff, fun rd rn imm s =>
    ⟨_, _, exec_sub rd rn imm s, ?_, resultWritten_writeResult rd _ s⟩⟩
  rw [toNat_reduce, toNat_immWord]

/-- Settles O13: AND ends in the conjunction, which is at most the immediate. -/
theorem andWritesBitwiseAnd : Obligations.AndWritesBitwiseAnd := by
  refine ⟨decode_eq_and_iff, fun rd rn imm s =>
    ⟨_, _, exec_and rd rn imm s, fun k hk => ?_, resultWritten_writeResult rd _ s, ?_⟩⟩
  · rw [BitVec.getLsbD_and, getLsbD_immWord imm hk]
  · exact (flagsFrom_of_flags_eq (writeResult_flags rd _ s)).n_eq_false (toNat_and_immWord_lt _ imm)

/-- Settles O14: OR ends in the disjunction. -/
theorem orWritesBitwiseOr : Obligations.OrWritesBitwiseOr := by
  refine ⟨decode_eq_or_iff, fun rd rn imm s =>
    ⟨_, _, exec_or rd rn imm s, fun k hk => ?_, resultWritten_writeResult rd _ s⟩⟩
  rw [BitVec.getLsbD_or, getLsbD_immWord imm hk]

/-- Settles O15: XOR ends in the exclusive or. -/
theorem xorWritesBitwiseXor : Obligations.XorWritesBitwiseXor := by
  refine ⟨decode_eq_xor_iff, fun rd rn imm s =>
    ⟨_, _, exec_xor rd rn imm s, fun k hk => ?_, resultWritten_writeResult rd _ s⟩⟩
  rw [BitVec.getLsbD_xor, getLsbD_immWord imm hk]

/-- Settles O16: MUL ends in the result that reduces the product. -/
theorem mulWritesLowProduct : Obligations.MulWritesLowProduct := by
  refine ⟨decode_eq_mul_iff, fun rd rn imm s =>
    ⟨_, _, exec_mul rd rn imm s, ?_, resultWritten_writeResult rd _ s⟩⟩
  rw [toNat_immWord]
  exact_mod_cast toNat_reduce_natCast ((getReg rn s).toNat * imm.toNat)

/-- Settles O20: the quotient needs no reduction, and its bit 31 is set only for the amount 0, when
it is the register itself. -/
theorem lsrWritesRightShift : Obligations.LsrWritesRightShift := by
  refine ⟨decode_eq_lsr_iff, fun rd rn shamt s => ?_⟩
  have hr := toNat_reduce_shiftRight (getReg rn s) shamt
  refine ⟨_, _, exec_lsr rd rn shamt s, hr, resultWritten_writeResult rd _ s, fun hn => ?_⟩
  have hbig := (getLsbD_31_iff _).1 hn
  rw [hr] at hbig
  obtain rfl : shamt = 0#5 := by
    by_contra hne
    exact (toNat_shiftRight_lt (getReg rn s) hne).not_ge hbig
  refine ⟨rfl, (getLsbD_31_iff _).2 ?_⟩
  simpa using hbig

/-! ### The obligations about loads and stores -/

theorem effectiveAddress_eq (rn : RegIdx) (offset : BitVec 12) (s : State) :
    effectiveAddress rn offset s = (getReg rn s).toNat + offset.toNat := rfl

theorem regsKeptExcept_setReg (i : RegIdx) (v : Word) (s : State) :
    RegsKeptExcept [i] s (setReg i v s) :=
  fun _ hj => getReg_setReg_ne (List.ne_of_not_mem_cons hj) v s

/-- Settles O21: the two arms of LDR; the first writes the word read to one register. -/
theorem ldrLoadsWord : Obligations.LdrLoadsWord := by
  refine ⟨decode_eq_ldr_iff, ?_⟩
  rintro rd rn offset s _ rfl
  refine ⟨rfl, fun hle => ⟨_, execLdr_of_le hle, ?_, rfl, regsKeptExcept_setReg rd _ s,
    fun _ => rfl, controlKept_setReg rd _ s⟩, execLdr_of_lt⟩
  rw [getReg_setReg_same, Memory.toNat_readWord]

/-- Settles O22: the two arms of STR; the first stores one word. -/
theorem strStoresWord : Obligations.StrStoresWord := by
  refine ⟨decode_eq_str_iff, ?_⟩
  rintro rd rn offset s _ hs rfl
  exact ⟨rfl, fun hle => ⟨_, execStr_of_le hle, wordStored_setMem_writeWord hs _ _, rfl,
    fun _ _ => rfl, controlKept_setMem _ s⟩, execStr_of_lt⟩

/-- Settles O24: the unreduced sum is past every capacity. -/
theorem addressSumNeverWraps : Obligations.AddressSumNeverWraps := by
  intro rd rn offset s hcap hsum
  have hlt : s.memCapacity < effectiveAddress rn offset s + 4 := by
    rw [effectiveAddress_eq]
    omega
  exact ⟨execLdr_of_lt hlt, execStr_of_lt hlt⟩

/-! ### The obligations about branches -/

/-- The target that both branches write to `x[15]`, as an integer. -/
theorem toNat_reduce_branchTarget (offset : BitVec 26) (s : State) :
    ((reduce (branchTarget offset s)).toNat : Int) =
      ((getReg 15#4 s).toNat + offset.toNat - 4 : Int) % 2 ^ 32 :=
  toNat_reduce (branchTarget offset s)

/-- Settles O25: B is one register write. -/
theorem branchWritesPcRegister : Obligations.BranchWritesPcRegister := by
  intro offset s
  refine ⟨Laws.MatchesRow.b offset, toNat_offset_encodeBr _ offset, _, exec_b s offset, ?_, rfl,
    regsKeptExcept_writeReg _ _ s, fun _ => rfl, controlKept_writeReg _ _ s⟩
  rw [getReg_writeReg_same, toNat_reduce_branchTarget]

/-- Settles O26: BL is two register writes, both from the old `x[15]`. -/
theorem branchLinkWritesLinkRegister : Obligations.BranchLinkWritesLinkRegister := by
  intro offset s
  refine ⟨Laws.MatchesRow.bl offset, toNat_offset_encodeBr _ offset, _, exec_bl s offset, ?_, ?_,
    rfl, (effect_of_exec (exec_bl s offset)).regsKept, fun _ => rfl,
    (controlKept_writeReg _ _ s).trans (controlKept_writeReg _ _ _)⟩
  · rw [getReg_lr_of_link, toNat_reduce_linkValue]
  · rw [getReg_writeReg_same, toNat_reduce_branchTarget]

end Machine

end Sys2Proof
end

section
/-! PROOFS. The statements about the representation of memory (10_state.md R35), the register file's
interface (R22), reset (70_reset_and_hazards.md R200 to R203) and a placed word. -/

namespace Sys2Proof.Machine

/-! ### Canonical memories -/

/-- The byte of a memory's first cell. -/
theorem Memory.readByte_head (a : Nat) (b : Byte) (m : Memory) :
    Memory.readByte ((a, b) :: m) a = b := if_pos rfl

theorem Memory.readByte_tail {a k : Nat} (h : a ≠ k) (b : Byte) (m : Memory) :
    Memory.readByte ((a, b) :: m) k = m.readByte k := if_neg h

/-- A canonical memory that reads as a listed cell does lists nothing above it first. -/
theorem Memory.not_wfFrom_above {a lo : Nat} {b : Byte} {m m' : Memory}
    (hb : b ≠ Config.unlistedByte) (hlt : a < lo)
    (hread : ∀ k, Memory.readByte ((a, b) :: m) k = m'.readByte k) :
    ¬ Memory.wfFrom lo m' = true := by
  intro hm'
  apply hb
  rw [← Memory.readByte_head a b m, hread a, Memory.readByte_below hm' hlt]

/-- Canonical memories with one first address, read alike, have tails that read alike. -/
theorem Memory.readByte_tail_congr {a : Nat} {b : Byte} {m m' : Memory}
    (hm : Memory.wfFrom (a + 1) m = true) (hm' : Memory.wfFrom (a + 1) m' = true)
    (hread : ∀ k, Memory.readByte ((a, b) :: m) k = Memory.readByte ((a, b) :: m') k) (k : Nat) :
    m.readByte k = m'.readByte k := by
  by_cases hk : a = k
  · subst hk
    rw [Memory.readByte_below hm (Nat.lt_succ_self a),
      Memory.readByte_below hm' (Nat.lt_succ_self a)]
  · rw [← Memory.readByte_tail hk b m, hread k, Memory.readByte_tail hk]

/-- The canonical form above any bound is determined by what it reads as. -/
theorem Memory.eq_of_readByte {lo lo' : Nat} {m m' : Memory} (hm : Memory.wfFrom lo m = true)
    (hm' : Memory.wfFrom lo' m' = true) (hread : ∀ k, m.readByte k = m'.readByte k) : m = m' := by
  induction m generalizing lo lo' m' with
  | nil =>
    cases m' with
    | nil => rfl
    | cons p m' =>
      obtain ⟨a, b⟩ := p
      obtain ⟨-, hb, -⟩ := (Memory.wfFrom_cons ..).1 hm'
      exact absurd rfl (Memory.not_wfFrom_above hb (Nat.lt_succ_self a) fun k => (hread k).symm)
  | cons p m ih =>
    obtain ⟨a, b⟩ := p
    obtain ⟨-, hb, htail⟩ := (Memory.wfFrom_cons ..).1 hm
    cases m' with
    | nil => exact absurd rfl (Memory.not_wfFrom_above hb (Nat.lt_succ_self a) hread)
    | cons p' m' =>
      obtain ⟨a', b'⟩ := p'
      obtain ⟨-, hb', htail'⟩ := (Memory.wfFrom_cons ..).1 hm'
      obtain rfl : a = a' := by
        obtain hlt | heq | hgt := Nat.lt_trichotomy a a'
        · exact absurd ((Memory.wfFrom_cons ..).2 ⟨le_rfl, hb', htail'⟩)
            (Memory.not_wfFrom_above hb hlt hread)
        · exact heq
        · exact absurd ((Memory.wfFrom_cons ..).2 ⟨le_rfl, hb, htail⟩)
            (Memory.not_wfFrom_above hb' hgt fun k => (hread k).symm)
      obtain rfl : b = b' := by
        rw [← Memory.readByte_head a b m, hread a, Memory.readByte_head]
      rw [ih htail htail' (Memory.readByte_tail_congr htail htail' hread)]

/-! ### Reset -/

section Reset
variable {cap : Nat} {image : List Byte}

theorem runAtReset_of_lt {len : Nat} (h : cap < len) :
    runAtReset cap len = .faulted .imageTooLarge :=
  if_pos h

theorem runAtReset_zero (cap : Nat) : runAtReset cap 0 = .haltedNormal := by
  rw [runAtReset, if_neg (Nat.not_lt_zero cap), if_pos rfl]

theorem runAtReset_of_le {len : Nat} (hpos : 0 < len) (h : len ≤ cap) :
    runAtReset cap len = .running := by
  rw [runAtReset, if_neg (Nat.not_lt.2 h), if_neg hpos.ne']

theorem memAtReset_of_le (h : image.length ≤ cap) :
    memAtReset cap image = Memory.writeBytes [] 0 image :=
  if_neg (Nat.not_lt.2 h)

/-- The memory after reset is a load of at most MEM_CAPACITY bytes into an empty memory, whatever
the image (20_memory.md R68, R69). -/
theorem memAtReset_eq_writeBytes (cap : Nat) (image : List Byte) :
    ∃ bs, bs.length ≤ cap ∧ memAtReset cap image = Memory.writeBytes [] 0 bs := by
  unfold memAtReset
  split
  case isTrue => exact ⟨_, by rw [List.length_map, List.length_range], rfl⟩
  case isFalse hle => exact ⟨image, Nat.not_lt.1 hle, rfl⟩

theorem memAtReset_wf (cap : Nat) (image : List Byte) : (memAtReset cap image).wf = true := by
  obtain ⟨bs, -, hmem⟩ := memAtReset_eq_writeBytes cap image
  rw [hmem]
  exact Memory.wf_writeBytes rfl 0 bs

theorem memAtReset_below (cap : Nat) (image : List Byte) :
    ∀ c ∈ memAtReset cap image, c.1 < cap := by
  obtain ⟨bs, hle, hmem⟩ := memAtReset_eq_writeBytes cap image
  rw [hmem]
  exact Memory.below_writeBytes (fun _ hc => absurd hc List.not_mem_nil) (by omega)

/-- The byte at every address after a reset with an image that fits (20_memory.md R68). -/
theorem readByte_memAtReset (h : image.length ≤ cap) (a : Nat) :
    (memAtReset cap image).readByte a = if a < image.length then image.getD a 0#8 else 0#8 := by
  rw [memAtReset_of_le h, Memory.readByte_writeBytes (m := []) rfl]
  simp only [Nat.zero_le, true_and, Nat.zero_add, Nat.sub_zero]
  rfl

theorem getReg_resetWith (i : RegIdx) : getReg i (resetWith cap image) = 0#32 := by
  simp [getReg, resetWith, State.reset]

/-- The run states that reset can leave. -/
theorem runAtReset_cases (cap len : Nat) :
    (cap < len ∧ runAtReset cap len = .faulted .imageTooLarge) ∨
    (len = 0 ∧ runAtReset cap len = .haltedNormal) ∨
    (0 < len ∧ len ≤ cap ∧ runAtReset cap len = .running) := by
  by_cases hlt : cap < len
  · exact .inl ⟨hlt, runAtReset_of_lt hlt⟩
  · obtain rfl | hpos := Nat.eq_zero_or_pos len
    · exact .inr (.inl ⟨rfl, runAtReset_zero cap⟩)
    · exact .inr (.inr ⟨hpos, Nat.not_lt.1 hlt, runAtReset_of_le hpos (Nat.not_lt.1 hlt)⟩)

/-- The one fault that reset can leave. -/
theorem eq_imageTooLarge_of_runAtReset {len : Nat} {kind : Fault}
    (h : runAtReset cap len = .faulted kind) : kind = .imageTooLarge := by
  obtain ⟨-, hrun⟩ | ⟨-, hrun⟩ | ⟨-, -, hrun⟩ := runAtReset_cases cap len
  · exact (RunState.faulted.inj (hrun.symm.trans h)).symm
  · exact RunState.noConfusion (hrun.symm.trans h)
  · exact RunState.noConfusion (hrun.symm.trans h)

end Reset

/-! ### The obligations -/

/-- Settles O44, by induction on the first memory: both list the same first cell, or neither lists
one. -/
theorem canonicalMemoriesEqual : Obligations.CanonicalMemoriesEqual :=
  fun _ _ => Memory.eq_of_readByte

/-- Settles O40: below 16 the 4-bit index is the index itself. -/
theorem registerIndexFault : Obligations.RegisterIndexFault := by
  intro k v s
  refine ⟨fun hk => ?_, fun hk => ?_⟩
  · have hidx : (BitVec.ofNat 4 k).toNat = k := Nat.mod_eq_of_lt hk
    constructor
    · simp only [registerFileGet, if_pos hk, getReg, hidx]
    · simp only [registerFileSet, if_pos hk, writeReg, setReg, reduce, hidx]
  · have hnot : ¬ k < 16 := Nat.not_lt.2 hk
    exact ⟨if_neg hnot, if_neg hnot⟩

/-- Settles O51: an image that fits and is not empty leaves the block RUNNING. -/
theorem resetClearsState : Obligations.ResetClearsState := fun _ _ hpos hle =>
  ⟨fun i => getReg_resetWith i, rfl, rfl, runAtReset_of_le hpos hle, rfl⟩

/-- Settles O52: the load stores the image into an empty memory. -/
theorem resetLoadsImage : Obligations.ResetLoadsImage := by
  refine ⟨fun cap image hle => ⟨fun a ha => ?_, fun a ha => ?_, rfl⟩, fun s t h => ?_⟩
  · refine (readByte_memAtReset hle a).trans ?_
    rw [if_pos ha, List.getD_eq_getElem image 0#8 ha]
  · exact (readByte_memAtReset hle a).trans (if_neg (Nat.not_lt.2 ha))
  · obtain ⟨-, hlen⟩ := parametersNeverChange s t h
    exact hlen

theorem resetWith_nil_eq_reset : resetWith 4096 [] = State.reset := rfl

/-- Settles O53: both resets leave a terminal state, which absorbs. -/
theorem resetWithoutStep : Obligations.ResetWithoutStep := by
  refine ⟨resetWith_nil_eq_reset, fun cap => ?_, fun cap image hlt => ?_⟩
  · have hrun : (resetWith cap []).run = .haltedNormal := runAtReset_zero cap
    exact ⟨hrun, step_of_halted (by rw [hrun]; exact RunState.noConfusion)⟩
  · have hrun : (resetWith cap image).run = .faulted .imageTooLarge := runAtReset_of_lt hlt
    exact ⟨hrun, step_of_halted (by rw [hrun]; exact RunState.noConfusion)⟩

/-- Settles O54: the word stored at `fpc` reads back, in a memory raised to reach over it. -/
theorem placedWordIsFetched : Obligations.PlacedWordIsFetched := by
  intro s w hs
  have hplace : s.withFetchWord 32 w.toNat = placeWord w s := by
    rw [State.withFetchWord, tableWord_toNat]
  have hfetch : memRead (placeWord w s).fpc.toNat (placeWord w s) = .ok w :=
    memRead_ok_iff.2 ⟨le_max_right .., (Memory.readWord_writeWord hs _ w).symm⟩
  rw [hplace]
  exact ⟨rfl, hfetch, traceRecord_of_fetch rfl hfetch⟩

/-- Settles O56: the three run states of a reset, over a memory that is loaded within its capacity.
-/
theorem resetWithImageMeetsInvariant : Obligations.ResetWithImageMeetsInvariant :=
  fun cap image hcap =>
  { memWf := memAtReset_wf cap image
    memBelow := memAtReset_below cap image
    capacityLe := hcap
    fpcInImage := fun hrun => by
      obtain ⟨-, h⟩ | ⟨-, h⟩ | ⟨hpos, -⟩ := runAtReset_cases cap image.length
      · exact absurd (hrun.symm.trans h) RunState.noConfusion
      · exact absurd (hrun.symm.trans h) RunState.noConfusion
      · exact hpos
    imageFits := (Nat.lt_or_ge cap image.length).elim (fun h => .inr (runAtReset_of_lt h)) .inl
    carryClear := rfl
    overflowClear := rfl
    notBothNZ := fun ⟨hn, _⟩ => Bool.false_ne_true hn
    faultOutside := fun _ h => Fault.noConfusion (eq_imageTooLarge_of_runAtReset h)
    noIndexFault := fun _ h => Fault.noConfusion (eq_imageTooLarge_of_runAtReset h) }

/-- Settles O55: the reset state is the reset with the empty image at 4096 bytes. -/
theorem resetMeetsInvariant : Obligations.ResetMeetsInvariant := by
  have h := resetWithImageMeetsInvariant 4096 [] (by decide)
  rw [resetWith_nil_eq_reset] at h
  exact h

end Sys2Proof.Machine
end
